-- ==== Sys2Proof/Word.lean ====
section
/-! DEFINITION. The word types of the CHIP-8 engine and its fixed sizes (00_scope.md R6, R9). -/

namespace Sys2Proof

/-- A memory byte, a general register, a timer, an `nn` immediate (R9). -/
abbrev Byte := BitVec 8

/-- An instruction word, and the width of I, pc and a stack slot (R9). -/
abbrev Word := BitVec 16

/-- The 12-bit address immediate `nnn` (R91). -/
abbrev Addr12 := BitVec 12

/-- The number of a general register, the `x` or `y` field (R91, R20). -/
abbrev Reg := Fin 16

/-- The value of the 4-bit field `n` (R91). -/
abbrev Nibble := Fin 16

/-- VF is V[15] (R10). -/
abbrev vf : Reg := 15

/-- `MEM_SIZE` (R6): addresses 0x000..0xFFF. -/
abbrev memSize : Nat := 4096

/-- `PROG_START` (R6): the reset value of pc. -/
abbrev progStart : Nat := 0x200

/-- `GLYPH_BYTES` (R6). -/
abbrev glyphBytes : Nat := 5

/-- `GLYPH_BYTES` times `NUM_GLYPHS` (R6): the length of the font region. -/
abbrev fontLength : Nat := 80

end Sys2Proof
end

