-- ==== Sys2Proof/Config.lean ====
section
/-! DEFINITION. What is fixed for one machine: the parameters the spec leaves open (00_scope.md R7), and
the free value of RND (60_exceptions.md R268). -/

namespace Sys2Proof

/-- The default `FONT_DATA`: the 16 glyphs 0..F of 10_state.md R33, five bytes each, top row first.
UNVERIFIED (the spec marks the bytes as general knowledge), log entry 11. -/
def defaultFont : List Byte :=
  [0xF0, 0x90, 0x90, 0x90, 0xF0] ++ [0x20, 0x60, 0x20, 0x20, 0x70] ++
  [0xF0, 0x10, 0xF0, 0x80, 0xF0] ++ [0xF0, 0x10, 0xF0, 0x10, 0xF0] ++
  [0x90, 0x90, 0xF0, 0x10, 0x10] ++ [0xF0, 0x80, 0xF0, 0x10, 0xF0] ++
  [0xF0, 0x80, 0xF0, 0x90, 0xF0] ++ [0xF0, 0x10, 0x20, 0x40, 0x40] ++
  [0xF0, 0x90, 0xF0, 0x90, 0xF0] ++ [0xF0, 0x90, 0xF0, 0x10, 0xF0] ++
  [0xF0, 0x90, 0xF0, 0x90, 0x90] ++ [0xE0, 0x90, 0xE0, 0x90, 0xE0] ++
  [0xF0, 0x80, 0x80, 0x80, 0xF0] ++ [0xE0, 0x90, 0x90, 0x90, 0xE0] ++
  [0xF0, 0x80, 0xF0, 0x80, 0xF0] ++ [0xF0, 0x80, 0xF0, 0x80, 0x80]

/-- The parameters of R7 with their defaults. `INSTR_PER_TICK` is a simulator's and no rule depends on
it: a value of `State.env` says it (log entry 24). -/
structure Config where
  /-- `FONT_BASE`: where glyph 0 sits. -/
  fontBase : Nat := 0x000
  /-- `FONT_DATA`: the 80 font bytes. -/
  fontData : List Byte := defaultFont
  /-- `LOAD_ORIGIN`: where the program image goes. -/
  loadOrigin : Nat := 0x200
  /-- `ADD_I_SETS_VF` (R191). -/
  addISetsVF : Bool := false
  /-- `VF_FLAG_LAST` (R7, D2): the flag of R166 to R170 is written after the result. -/
  vfFlagLast : Bool := false
  /-- `STRICT_5XY0` (R7, D29): 5xyn and 9xyn with n ≠ 0 are unknown opcodes. -/
  strict5xy0 : Bool := false
  deriving DecidableEq, Repr

/-- What R7 and R33 ask of the parameters: the font lies in the reserved region and is 80 bytes long. -/
abbrev Config.wf (c : Config) : Prop :=
  c.fontBase + fontLength ≤ 0x200 ∧ c.fontData.length = fontLength

/-- The random oracle's answer to the request number `k` (R268): a FREE VALUE, any byte. The constant
has no body on purpose: nothing can be proved about which byte it is (log entry 6). -/
opaque Config.draw : Nat → Byte

end Sys2Proof
end

