-- ==== Sys2Proof/Syntax.lean ====
section
/-! DEFINITION. The instructions: one constructor per row of spec/opcode_table.json (30_encoding.md R94).
The nibble a format ignores (R92: n of 5xyn and 9xyn, y of 8xy6 and 8xyE) is kept, so that one word is one
instruction. -/

namespace Sys2Proof

/-- The 34 instructions of R94, in the table's order. -/
inductive Instr where
  /-- 00E0 CLS (R210). -/
  | cls
  /-- 00EE RET (R140). -/
  | ret
  /-- 1nnn JP nnn (R141). -/
  | jp (nnn : Addr12)
  /-- 2nnn CALL nnn (R142). -/
  | call (nnn : Addr12)
  /-- 3xnn SE Vx, nn (R143). -/
  | seImm (x : Reg) (nn : Byte)
  /-- 4xnn SNE Vx, nn (R144). -/
  | sneImm (x : Reg) (nn : Byte)
  /-- 5xyn SE Vx, Vy; n is ignored (R145, R99). -/
  | seReg (x y : Reg) (n : Nibble)
  /-- 6xnn LD Vx, nn (R160). -/
  | ldImm (x : Reg) (nn : Byte)
  /-- 7xnn ADD Vx, nn (R161). -/
  | addImm (x : Reg) (nn : Byte)
  /-- 8xy0 LD Vx, Vy (R162). -/
  | ldReg (x y : Reg)
  /-- 8xy1 OR Vx, Vy (R163). -/
  | orReg (x y : Reg)
  /-- 8xy2 AND Vx, Vy (R164). -/
  | andReg (x y : Reg)
  /-- 8xy3 XOR Vx, Vy (R165). -/
  | xorReg (x y : Reg)
  /-- 8xy4 ADD Vx, Vy (R166). -/
  | addReg (x y : Reg)
  /-- 8xy5 SUB Vx, Vy (R167). -/
  | subReg (x y : Reg)
  /-- 8xy6 SHR Vx; y is ignored (R168). -/
  | shr (x y : Reg)
  /-- 8xy7 SUBN Vx, Vy (R169). -/
  | subnReg (x y : Reg)
  /-- 8xyE SHL Vx; y is ignored (R170). -/
  | shl (x y : Reg)
  /-- 9xyn SNE Vx, Vy; n is ignored (R146, R99). -/
  | sneReg (x y : Reg) (n : Nibble)
  /-- Annn LD I, nnn (R190). -/
  | ldI (nnn : Addr12)
  /-- Bnnn JP V0, nnn (R147). -/
  | jpV0 (nnn : Addr12)
  /-- Cxnn RND Vx, nn (R171). -/
  | rnd (x : Reg) (nn : Byte)
  /-- Dxyn DRW Vx, Vy, n (R211). -/
  | drw (x y : Reg) (n : Nibble)
  /-- Ex9E SKP Vx (R230). -/
  | skp (x : Reg)
  /-- ExA1 SKNP Vx (R231). -/
  | sknp (x : Reg)
  /-- Fx07 LD Vx, DT (R232). -/
  | ldVxDT (x : Reg)
  /-- Fx0A LD Vx, K (R233). -/
  | ldVxK (x : Reg)
  /-- Fx15 LD DT, Vx (R234). -/
  | ldDTVx (x : Reg)
  /-- Fx18 LD ST, Vx (R235). -/
  | ldSTVx (x : Reg)
  /-- Fx1E ADD I, Vx (R191). -/
  | addI (x : Reg)
  /-- Fx29 LD F, Vx (R192). -/
  | ldF (x : Reg)
  /-- Fx33 LD B, Vx (R193). -/
  | ldB (x : Reg)
  /-- Fx55 LD [I], Vx (R194). -/
  | ldMemVx (x : Reg)
  /-- Fx65 LD Vx, [I] (R195). -/
  | ldVxMem (x : Reg)
  deriving DecidableEq, Repr

end Sys2Proof
end

