-- ==== Sys2Proof/Decode.lean ====
section
/-! DEFINITION. The decoder and dispatch of 30_encoding.md (R90 to R102), total on any word and any bytes,
and the encoder, written from the same map (R94). -/

namespace Sys2Proof

/-- Why no instruction is read. -/
inductive DecodeError where
  /-- The word matches no row of R94 (R100). -/
  | unknownOpcode (w : Word)
  /-- Fewer than the two bytes of an instruction are there (R90). -/
  | truncated
  deriving DecidableEq, Repr

/-- `w[hi:lo]`, the unsigned value of bits hi down to lo (R8). -/
def bits (w : Word) (hi lo : Nat) : Nat :=
  w.toNat / 2 ^ lo % 2 ^ (hi + 1 - lo)

/-- The major opcode `op`, bits 15..12 (R91). -/
def fieldOp (w : Word) : Nat := bits w 15 12

/-- The register field `x`, bits 11..8 (R91). -/
def fieldX (w : Word) : Reg := Fin.ofNat 16 (bits w 11 8)

/-- The register field `y`, bits 7..4 (R91). -/
def fieldY (w : Word) : Reg := Fin.ofNat 16 (bits w 7 4)

/-- The nibble `n`, bits 3..0 (R91). -/
def fieldN (w : Word) : Nibble := Fin.ofNat 16 (bits w 3 0)

/-- The byte `nn`, bits 7..0 (R91). -/
def fieldNN (w : Word) : Byte := BitVec.ofNat 8 (bits w 7 0)

/-- The address `nnn`, bits 11..0 (R91). -/
def fieldNNN (w : Word) : Addr12 := BitVec.ofNat 12 (bits w 11 0)

/-- Group 0x0: the two whole words 00E0 and 00EE (R95). -/
def decodeGroup0 (w : Word) : Except DecodeError Instr :=
  match bits w 11 0 with
  | 0x0E0 => .ok .cls
  | 0x0EE => .ok .ret
  | _ => .error (.unknownOpcode w)

/-- Group 0x8, keyed by `n` (R96). -/
def decodeGroup8 (w : Word) : Except DecodeError Instr :=
  let x := fieldX w
  let y := fieldY w
  match bits w 3 0 with
  | 0x0 => .ok (.ldReg x y)
  | 0x1 => .ok (.orReg x y)
  | 0x2 => .ok (.andReg x y)
  | 0x3 => .ok (.xorReg x y)
  | 0x4 => .ok (.addReg x y)
  | 0x5 => .ok (.subReg x y)
  | 0x6 => .ok (.shr x y)
  | 0x7 => .ok (.subnReg x y)
  | 0xE => .ok (.shl x y)
  | _ => .error (.unknownOpcode w)

/-- Group 0xE, keyed by `nn` (R97). -/
def decodeGroupE (w : Word) : Except DecodeError Instr :=
  match bits w 7 0 with
  | 0x9E => .ok (.skp (fieldX w))
  | 0xA1 => .ok (.sknp (fieldX w))
  | _ => .error (.unknownOpcode w)

/-- Group 0xF, keyed by `nn` (R98). -/
def decodeGroupF (w : Word) : Except DecodeError Instr :=
  let x := fieldX w
  match bits w 7 0 with
  | 0x07 => .ok (.ldVxDT x)
  | 0x0A => .ok (.ldVxK x)
  | 0x15 => .ok (.ldDTVx x)
  | 0x18 => .ok (.ldSTVx x)
  | 0x1E => .ok (.addI x)
  | 0x29 => .ok (.ldF x)
  | 0x33 => .ok (.ldB x)
  | 0x55 => .ok (.ldMemVx x)
  | 0x65 => .ok (.ldVxMem x)
  | _ => .error (.unknownOpcode w)

/-- Decode one word: by `op`, then for 0x0, 0x8, 0xE and 0xF by the secondary key (R94, R99). It depends
on nothing but the word (R102). -/
def decode (w : Word) : Except DecodeError Instr :=
  match fieldOp w with
  | 0x0 => decodeGroup0 w
  | 0x1 => .ok (.jp (fieldNNN w))
  | 0x2 => .ok (.call (fieldNNN w))
  | 0x3 => .ok (.seImm (fieldX w) (fieldNN w))
  | 0x4 => .ok (.sneImm (fieldX w) (fieldNN w))
  | 0x5 => .ok (.seReg (fieldX w) (fieldY w) (fieldN w))
  | 0x6 => .ok (.ldImm (fieldX w) (fieldNN w))
  | 0x7 => .ok (.addImm (fieldX w) (fieldNN w))
  | 0x8 => decodeGroup8 w
  | 0x9 => .ok (.sneReg (fieldX w) (fieldY w) (fieldN w))
  | 0xA => .ok (.ldI (fieldNNN w))
  | 0xB => .ok (.jpV0 (fieldNNN w))
  | 0xC => .ok (.rnd (fieldX w) (fieldNN w))
  | 0xD => .ok (.drw (fieldX w) (fieldY w) (fieldN w))
  | 0xE => decodeGroupE w
  | 0xF => decodeGroupF w
  | _ => .error (.unknownOpcode w)

/-- Dispatch on a machine with parameters `c` (R124): the decoded instruction, unless `STRICT_5XY0` makes
the word an unknown opcode (R7, D29). -/
def dispatch (c : Config) (w : Word) : Except DecodeError Instr :=
  match decode w with
  | .ok i => if i.wf c then .ok i else .error (.unknownOpcode w)
  | .error e => .error e

/-- The big-endian word of two bytes: `zext_16(hi) << 8 | zext_16(lo)` (20_memory.md R64). -/
def wordOfBytes (hi lo : Byte) : Word :=
  (hi.setWidth 16 <<< 8) ||| lo.setWidth 16

/-- The byte at an instruction's lower address: the high byte (R64). -/
def highByte (w : Word) : Byte := BitVec.ofNat 8 (bits w 15 8)

/-- The byte at an instruction's higher address: the low byte (R64). -/
def lowByte (w : Word) : Byte := BitVec.ofNat 8 (bits w 7 0)

/-- Decode the instruction at the head of a byte sequence; the rest of the bytes is returned (R90). -/
def decodeBytes : List Byte → Except DecodeError (Instr × List Byte)
  | hi :: lo :: rest =>
    match decode (wordOfBytes hi lo) with
    | .ok i => .ok (i, rest)
    | .error e => .error e
  | [_] => .error .truncated
  | [] => .error .truncated

/-- A word of format NNN: op and nnn (R92). -/
def wordNNN (op : Nat) (nnn : Addr12) : Word :=
  BitVec.ofNat 16 (op * 4096 + nnn.toNat)

/-- A word of format XNN, or XK with a fixed `nn`: op, x and nn (R92). -/
def wordXNN (op : Nat) (x : Reg) (nn : Byte) : Word :=
  BitVec.ofNat 16 (op * 4096 + x.val * 256 + nn.toNat)

/-- A word of format XY, XYK or XYN: op, x, y and n (R92). -/
def wordXYN (op : Nat) (x y : Reg) (n : Nibble) : Word :=
  BitVec.ofNat 16 (op * 4096 + x.val * 256 + y.val * 16 + n.val)

/-- The word of an instruction, row by row from the map of R94. -/
def encode : Instr → Word
  | .cls => 0x00E0
  | .ret => 0x00EE
  | .jp nnn => wordNNN 0x1 nnn
  | .call nnn => wordNNN 0x2 nnn
  | .seImm x nn => wordXNN 0x3 x nn
  | .sneImm x nn => wordXNN 0x4 x nn
  | .seReg x y n => wordXYN 0x5 x y n
  | .ldImm x nn => wordXNN 0x6 x nn
  | .addImm x nn => wordXNN 0x7 x nn
  | .ldReg x y => wordXYN 0x8 x y 0x0
  | .orReg x y => wordXYN 0x8 x y 0x1
  | .andReg x y => wordXYN 0x8 x y 0x2
  | .xorReg x y => wordXYN 0x8 x y 0x3
  | .addReg x y => wordXYN 0x8 x y 0x4
  | .subReg x y => wordXYN 0x8 x y 0x5
  | .shr x y => wordXYN 0x8 x y 0x6
  | .subnReg x y => wordXYN 0x8 x y 0x7
  | .shl x y => wordXYN 0x8 x y 0xE
  | .sneReg x y n => wordXYN 0x9 x y n
  | .ldI nnn => wordNNN 0xA nnn
  | .jpV0 nnn => wordNNN 0xB nnn
  | .rnd x nn => wordXNN 0xC x nn
  | .drw x y n => wordXYN 0xD x y n
  | .skp x => wordXNN 0xE x 0x9E
  | .sknp x => wordXNN 0xE x 0xA1
  | .ldVxDT x => wordXNN 0xF x 0x07
  | .ldVxK x => wordXNN 0xF x 0x0A
  | .ldDTVx x => wordXNN 0xF x 0x15
  | .ldSTVx x => wordXNN 0xF x 0x18
  | .addI x => wordXNN 0xF x 0x1E
  | .ldF x => wordXNN 0xF x 0x29
  | .ldB x => wordXNN 0xF x 0x33
  | .ldMemVx x => wordXNN 0xF x 0x55
  | .ldVxMem x => wordXNN 0xF x 0x65

/-- The bytes of a word as memory holds them: high byte first (R64). -/
def bytesOfWord (w : Word) : List Byte := [highByte w, lowByte w]

/-- The host's question about one opcode-table row: the instruction the decoder reads from the bytes of the
word `w` (bits above `nbits` are 0). -/
def decodeTableWord (nbits w : Nat) : Option Instr :=
  match decodeBytes (bytesOfWord (BitVec.ofNat 16 (w % 2 ^ nbits))) with
  | .ok (i, _) => some i
  | .error _ => none

end Sys2Proof
end

