-- ==== Sys2Proof/Machine/State.lean ====
section
/-! DEFINITION. The state of the block (10_state.md), as plain data, the reasons a step can stop, and the
state after reset (70_reset_and_hazards.md R290). -/

namespace Sys2Proof.Machine

/-- The engine run state `RUN` (R30). -/
inductive Run where
  /-- Ready to execute the next instruction. -/
  | ready
  /-- Waiting inside Fx0A for a key edge; `x` is the destination register. -/
  | suspended (x : Reg)
  /-- A fatal engine error has occurred. -/
  | halted
  deriving DecidableEq, Repr

/-- The four fatal engine errors (60_exceptions.md R250). -/
inductive FaultKind where
  | outOfBounds
  | stackOverflow
  | stackUnderflow
  | unknownOpcode
  deriving DecidableEq, Repr

/-- The fault record `FAULT` when it is not empty (R31). -/
structure FaultRecord where
  /-- Which fatal engine error. -/
  kind : FaultKind
  /-- `fault_pc`, the address of the instruction that faulted. -/
  pc : Word
  /-- The instruction word; absent for a fault of the fetch itself. -/
  word : Option Word
  deriving DecidableEq, Repr

/-- The events of the block's interface (R262, R264). -/
inductive Event where
  /-- The engine runs one instruction (R120). -/
  | step
  /-- `tick()` of the 60 Hz timer driver (R257). -/
  | tick
  /-- `set_key_state(k, p)` of the input source (R261); `k` is checked when it is delivered. -/
  | key (k : Nat) (pressed : Bool)
  /-- `snapshot()` of the renderer (R266). -/
  | snapshot
  /-- `load(bytes, origin)` of the ROM loader (R69, R265). -/
  | load (bytes : List Byte) (origin : Nat)
  deriving DecidableEq, Repr

/-- The bytes of memory that differ from the reset contents: (address, byte), addresses strictly rising
(log entry 10). -/
abbrev Memory := List Host.Cell

/-- The pixel grid: 32 rows of 64 pixels, `FB[y][x]`; true is on (R34). -/
abbrev Framebuffer := Vector (Vector Bool 64) 32

/-- Everything the spec gives the block (10_state.md), and the model's own `draws` and `env`. -/
structure State where
  /-- V0..VF (R20). -/
  v : Vector Byte 16
  /-- The index register I (R23). -/
  i : Word
  /-- The program counter (R24). -/
  pc : Word
  /-- `SP`, the number of return addresses held, 0..16 (R27). -/
  sp : Fin 17
  /-- `STACK[0..15]` (R28). -/
  stack : Vector Word 16
  /-- The delay timer (R29). -/
  dt : Byte
  /-- The sound timer (R29). -/
  st : Byte
  /-- `RUN` (R30). -/
  run : Run
  /-- `FAULT` (R31). -/
  fault : Option FaultRecord
  /-- The 4096 bytes of memory (R32), as the cells that differ from the reset contents. -/
  mem : Memory
  /-- The framebuffer (R34). -/
  fb : Framebuffer
  /-- The input latch `KEY[0..15]`; true is pressed (R35). -/
  key : Vector Bool 16
  /-- The program load has completed, or an engine step has been taken: the run has begun (R264, R265;
  log entry 5). -/
  started : Bool
  /-- The parameters of the machine (00_scope.md R7; log entry 7). Nothing writes it. -/
  cfg : Config
  /-- MODEL'S OWN: how many bytes the random oracle has been asked for (R268; log entry 6). -/
  draws : Nat
  /-- MODEL'S OWN: the outside events still to come, the next one first; while it is empty the engine
  steps (R264; log entry 4). -/
  env : List Event
  deriving DecidableEq, Repr

/-- Why the model has no next state because the machine has stopped. -/
inductive Fault where
  /-- Raised by every event once RUN = Halted: the run is over and no event has a meaning (R127, R272).
  Safe: no rule moves the machine from here. -/
  | halted
  /-- Raised by an engine step asked for while RUN = Suspended: the engine has no step until a key edge
  (R126). Safe: no rule of the engine moves the machine from here (log entry 3). -/
  | waitingForKey
  deriving DecidableEq, Repr

/-- Why the model does not take an event: the event is outside the interface's contract. -/
inductive Refusal where
  /-- Raised by an arm of exec whose instruction has no meaning yet; no arm raises it. Safe. -/
  | notModelled (mnemonic : String)
  /-- Raised by a tick, a key event or a snapshot before the program load has completed (R264). Safe. -/
  | notLoaded
  /-- Raised by a load after the run has begun (R265). Safe. -/
  | loadAfterStart
  /-- Raised by a load whose image does not fit: nothing is written and no run begins (R69, R265). Safe. -/
  | loadError
  /-- Raised by a key event whose index is outside 0..15 (R261). Safe. -/
  | keyOutOfRange
  deriving DecidableEq, Repr

/-- The state after reset of a machine with parameters `c` (R290): memory lists nothing, so it reads as the
reset contents of R32. -/
def State.resetWith (c : Config) : State where
  v := Vector.replicate 16 0
  i := 0
  pc := BitVec.ofNat 16 progStart
  sp := 0
  stack := Vector.replicate 16 0
  dt := 0
  st := 0
  run := .ready
  fault := none
  mem := []
  fb := Vector.replicate 32 (Vector.replicate 64 false)
  key := Vector.replicate 16 false
  started := false
  cfg := c
  draws := 0
  env := []

/-- The state after reset, every parameter at its default (R7, R290). -/
def State.reset : State := State.resetWith {}

end Sys2Proof.Machine
end

