-- ==== Sys2Proof/Machine/Ops.lean ====
section
/-! DEFINITION. The named operations over registers, memory, the call stack, the framebuffer, the timers and
the latch, and the taking of a fatal engine error. -/

namespace Sys2Proof.Machine

/-! ### General registers -/

/-- Read `V[x]` (00_scope.md R10). -/
def State.V (s : State) (x : Reg) : Byte := s.v[x.val]

/-- `V[x] <- b` (R10). -/
def State.setV (s : State) (x : Reg) (b : Byte) : State :=
  { s with v := s.v.set x.val b }

/-- The registers V0..Vx, in order (43_index_memory.md R194). -/
def State.regsUpTo (s : State) (x : Reg) : List Byte :=
  s.v.toList.take (x.val + 1)

/-- The register file with the bytes `bs` written to `V[k]`, `V[k+1]`, ... (R195). -/
def loadRegs : List Byte → Nat → Vector Byte 16 → Vector Byte 16
  | [], _, v => v
  | b :: bs, k, v => loadRegs bs (k + 1) (v.setIfInBounds k b)

/-! ### Memory -/

/-- What an address reads as at reset (10_state.md R32, R33): the font at `FONT_BASE`, 0 elsewhere. This is
also what an unlisted address of `Memory` reads as. -/
def resetByte (c : Config) (a : Nat) : Byte :=
  if c.fontBase ≤ a ∧ a < c.fontBase + fontLength then c.fontData.getD (a - c.fontBase) 0 else 0

/-- The byte a memory holds at `a`, where an unlisted address reads as `base a`. -/
def Memory.read (base : Nat → Byte) : Memory → Nat → Byte
  | [], a => base a
  | (b, u) :: m, a => if a = b then u else Memory.read base m a

/-- The memory after byte `u` is written at `a`, in canonical form again. -/
def Memory.write (base : Nat → Byte) : Memory → Nat → Byte → Memory
  | [], a, u => if u = base a then [] else [(a, u)]
  | (b, w) :: m, a, u =>
    if a < b then (if u = base a then (b, w) :: m else (a, u) :: (b, w) :: m)
    else if a = b then (if u = base a then m else (a, u) :: m)
    else (b, w) :: Memory.write base m a u

/-- The canonical form: addresses strictly rise, lie in the 4096 bytes, and no cell holds what its address
reads as when unlisted. -/
abbrev Memory.wf (base : Nat → Byte) (m : Memory) : Prop :=
  m.Pairwise (fun c d => c.1 < d.1) ∧ ∀ c ∈ m, c.1 < memSize ∧ c.2 ≠ base c.1

/-- `M[a]`, the contents of memory at `a` with no bounds check (00_scope.md R11 reads through `read8`). -/
def State.byte (s : State) (a : Nat) : Byte := s.mem.read (resetByte s.cfg) a

/-- `read8` (20_memory.md R62): none is OutOfBounds. -/
def State.read8 (s : State) (a : Nat) : Option Byte :=
  if a < memSize then some (s.byte a) else none

/-- `write8` (R62): none is OutOfBounds. -/
def State.write8 (s : State) (a : Nat) (b : Byte) : Option State :=
  if a < memSize then some { s with mem := s.mem.write (resetByte s.cfg) a b } else none

/-- `read16` (R62, R64): big-endian, both bytes in bounds; none is OutOfBounds. -/
def State.read16 (s : State) (a : Nat) : Option Word :=
  match s.read8 a, s.read8 (a + 1) with
  | some hi, some lo => some (wordOfBytes hi lo)
  | _, _ => none

/-- The `n` bytes at `a`, `a + 1`, ... through `read8`; none if any of them is out of bounds (R63). -/
def State.readBytes (s : State) (a : Nat) : Nat → Option (List Byte)
  | 0 => some []
  | n + 1 =>
    match s.read8 a, s.readBytes (a + 1) n with
    | some b, some bs => some (b :: bs)
    | _, _ => none

/-- Write bytes at `a`, `a + 1`, ... through `write8`; none, and so no write at all, if any of them is out of
bounds (R68). -/
def State.writeBytes (s : State) (a : Nat) : List Byte → Option State
  | [] => some s
  | b :: bs =>
    match s.write8 a b with
    | some t => t.writeBytes (a + 1) bs
    | none => none

/-- `load(bytes, origin)` (R62, R69): none is the loader's OutOfBounds, with nothing written. -/
def State.load (s : State) (bytes : List Byte) (origin : Nat) : Option State :=
  if origin + bytes.length ≤ memSize then s.writeBytes origin bytes else none

/-! ### The call stack -/

/-- Push a return address: `STACK[SP] <- r`, then SP + 1; none where SP = 16 (41_control_flow.md R142). -/
def State.push (s : State) (r : Word) : Option State :=
  if h : s.sp.val < 16 then
    some { s with stack := s.stack.set s.sp.val r, sp := ⟨s.sp.val + 1, by omega⟩ }
  else none

/-- Pop a return address: SP - 1, then `STACK[SP]`, which keeps its value; none where SP = 0 (R140, R28). -/
def State.pop (s : State) : Option (Word × State) :=
  if h : 0 < s.sp.val then
    some (s.stack[s.sp.val - 1], { s with sp := ⟨s.sp.val - 1, by omega⟩ })
  else none

/-! ### Fatal engine errors -/

/-- Fault entry (40_engine_cycle.md R128, 60_exceptions.md R251): RUN <- Halted, FAULT <- (kind, address of
the instruction, word), and pc is that address; nothing else changes. There is no return from it (R253). -/
def takeFault (kind : FaultKind) (a : Word) (word : Option Word) (s : State) :
    Host.Outcome State Fault Refusal :=
  .next { s with pc := a, run := .halted, fault := some ⟨kind, a, word⟩ }

/-- A fault of the execute part of `i`, in the state after the advance: the advance of R123 is undone, so the
address is that of the instruction, and the word recorded is the instruction's (R128). -/
def raise (kind : FaultKind) (i : Instr) (s : State) : Host.Outcome State Fault Refusal :=
  takeFault kind (s.pc - 2) (some (encode i)) s

/-- The numeric label of a fault kind (R250); it carries no meaning (D23). -/
def FaultKind.code : FaultKind → Nat
  | .outOfBounds => 1
  | .stackOverflow => 2
  | .stackUnderflow => 3
  | .unknownOpcode => 4

/-! ### The framebuffer -/

/-- The pixel in column `x`, row `y`; coordinates wrap (10_state.md R34). -/
def Framebuffer.pixel (fb : Framebuffer) (x y : Nat) : Bool :=
  (fb[y % 32]'(Nat.mod_lt _ (by decide)))[x % 64]'(Nat.mod_lt _ (by decide))

/-- The grid with the pixel in column `x`, row `y` inverted (44_display.md R211). -/
def Framebuffer.flip (fb : Framebuffer) (x y : Nat) : Framebuffer :=
  have hy : y % 32 < 32 := Nat.mod_lt _ (by decide)
  fb.set (y % 32) (fb[y % 32].set (x % 64) (!fb.pixel x y) (Nat.mod_lt _ (by decide)))

/-- `clear()` (R210, R212). -/
def Framebuffer.clear : Framebuffer := Vector.replicate 32 (Vector.replicate 64 false)

/-- A framebuffer and `coll`, whether a pixel has gone from on to off (R211). -/
abbrev Blit := Framebuffer × Bool

/-- The loop over the columns of one sprite row of R211: from column `c` on, `k` columns, bit 7 of `b` is
column 0. -/
def blitRow (b : Byte) (x0 py : Nat) : Nat → Nat → Blit → Blit
  | _, 0, z => z
  | c, k + 1, z =>
    blitRow b x0 py (c + 1) k
      (if b.getLsbD (7 - c) then (z.1.flip (x0 + c) py, z.2 || z.1.pixel (x0 + c) py) else z)

/-- The loop over the rows of R211, the first of `rows` at row `y`. -/
def blitRows (x0 : Nat) : Nat → List Byte → Blit → Blit
  | _, [], z => z
  | y, b :: rows, z => blitRows x0 (y + 1) rows (blitRow b x0 y 0 8 z)

/-- `blit(x, y, rows)` (R212): the grid after the XOR, and whether any pixel went from on to off. -/
def Framebuffer.blit (fb : Framebuffer) (x0 y0 : Nat) (rows : List Byte) : Blit :=
  blitRows x0 y0 rows (fb, false)

/-! ### Timers, sound and the input latch -/

/-- One 60 Hz decrement, floored at 0 (60_exceptions.md R257). -/
def countDown (t : Byte) : Byte := if t = 0 then 0 else t - 1

/-- `tick()` (R257). -/
def tick (s : State) : State := { s with dt := countDown s.dt, st := countDown s.st }

/-- The sound output, `ST ≠ 0` (R260). -/
def State.soundOn (s : State) : Bool := s.st != 0

/-- `snapshot()`: a copy of the framebuffer (R266). -/
def State.snapshot (s : State) : Framebuffer := s.fb

/-- `status()`: RUN and FAULT (R262). -/
def State.status (s : State) : Run × Option FaultRecord := (s.run, s.fault)

/-- Whether key `k` is pressed (10_state.md R35). -/
def State.pressed (s : State) (k : Fin 16) : Bool := s.key[k.val]

/-- `set_key_state(k, p)` (R261), and the resumption of a suspended Fx0A by a released-to-pressed edge: KEY,
then `V[x] <- k`, then RUN <- Ready (R263). -/
def setKeyState (k : Fin 16) (p : Bool) (s : State) : State :=
  let s' := { s with key := s.key.set k.val p }
  match s.run with
  | .suspended x =>
    if p && !s.pressed k then { s'.setV x (BitVec.ofNat 8 k.val) with run := .ready } else s'
  | .ready => s'
  | .halted => s'

/-! ### The random oracle -/

/-- `draw()` (R268): the oracle's next answer, a free value, and the state that has asked for it. -/
def draw (s : State) : Byte × State := (Config.draw s.draws, { s with draws := s.draws + 1 })

/-! ### Placing a program -/

/-- The host loads an image at `LOAD_ORIGIN` as the next event (R265, R292). -/
def State.withProgram (s : State) (image : List Byte) : State :=
  { s with env := .load image s.cfg.loadOrigin :: s.env }

/-- The events of `rounds` timer periods with `k` engine steps in each: `INSTR_PER_TICK` = k (R7, R264). -/
def stepsPerTick (k : Nat) : Nat → List Event
  | 0 => []
  | rounds + 1 => List.replicate k Event.step ++ Event.tick :: stepsPerTick k rounds

/-- The state in which the next step fetches `w`: `w` stands at pc, or at 0x200 where pc has no room for an
instruction, the engine is ready and it is its turn (log entry 26). -/
def placeWord (w : Word) (s : State) : State :=
  let a := if s.pc.toNat + 1 < memSize then s.pc.toNat else progStart
  let base := resetByte s.cfg
  { s with
    pc := BitVec.ofNat 16 a
    mem := (s.mem.write base a (highByte w)).write base (a + 1) (lowByte w)
    run := .ready
    fault := none
    started := true
    env := [] }

end Sys2Proof.Machine
end

