-- ==== Sys2Proof/Machine/Flags.lean ====
section
/-! DEFINITION. Every flag computation of the block; VF is the only flag (42_alu.md R173). -/

namespace Sys2Proof.Machine

/-- `bool01(c)` (00_scope.md R9). -/
def bool01 (c : Bool) : Byte := if c then 1 else 0

/-- The carry out of bit 7 of an 8-bit sum (R166). -/
def carryOut (a b : Byte) : Bool := decide (a.toNat + b.toNat > 255)

/-- NOT borrow of `a - b` (R167, R169). -/
def notBorrow (a b : Byte) : Bool := decide (a.toNat ≥ b.toNat)

/-- Bit 0, what SHR shifts out (R168). -/
def lowBit (a : Byte) : Bool := decide (a.toNat % 2 = 1)

/-- Bit 7, what SHL shifts out (R170). -/
def highBit (a : Byte) : Bool := decide (a.toNat / 128 % 2 = 1)

/-- The sum of ADD I passes 0xFFF, the flag of the variant `ADD_I_SETS_VF` (43_index_memory.md R191). -/
def passesMemory (i : Word) (b : Byte) : Bool := decide (i.toNat + b.toNat > 0xFFF)

/-- `VF <- bool01(c)`. -/
def State.setVF (s : State) (c : Bool) : State := s.setV vf (bool01 c)

/-- The two writes of R166 to R170: the flag, then the result, so that at x = 15 VF keeps the result (D2);
under `VF_FLAG_LAST` the result, then the flag (00_scope.md R7). -/
def State.setVWithFlag (s : State) (x : Reg) (result : Byte) (flag : Bool) : State :=
  if s.cfg.vfFlagLast then (s.setV x result).setVF flag else (s.setVF flag).setV x result

end Sys2Proof.Machine
end

