-- ==== Sys2Proof/Machine/Operands.lean ====
section
/-! DEFINITION. The operand forms: immediates (30_encoding.md R93), the address I + k (43_index_memory.md R196),
the font address, the key index, and the BCD digits. -/

namespace Sys2Proof.Machine

/-- `zext_16(nnn)` (R93). -/
def zextAddr (nnn : Addr12) : Word := nnn.setWidth 16

/-- The target of JP V0: `zext_16(V[0]) + zext_16(nnn)`; the sum is at most 0x10FE (41_control_flow.md R147). -/
def offsetTarget (v0 : Byte) (nnn : Addr12) : Word := v0.setWidth 16 + nnn.setWidth 16

/-- The effective address `I + k`, an integer that is never reduced (20_memory.md R65, R196). -/
def State.ea (s : State) (k : Nat) : Nat := s.i.toNat + k

/-- `(I + b) mod 65536` (R191). -/
def addIndex (i : Word) (b : Byte) : Word := BitVec.ofNat 16 (i.toNat + b.toNat)

/-- The font address of digit `d`, `FONT_BASE + 5 * d`; no glyph exists above digit 15 (R192). -/
def glyphAddress (c : Config) (d : Byte) : Option Word :=
  if d.toNat ≤ 15 then some (BitVec.ofNat 16 (c.fontBase + glyphBytes * d.toNat)) else none

/-- The latch index held in a register; none above 15 (45_timers_input.md R230, R231). -/
def keyIndex (b : Byte) : Option (Fin 16) :=
  if h : b.toNat < 16 then some ⟨b.toNat, h⟩ else none

/-- Hundreds, tens and ones of a byte, the most significant first (R193). -/
def bcdDigits (b : Byte) : List Byte :=
  [BitVec.ofNat 8 (b.toNat / 100), BitVec.ofNat 8 (b.toNat / 10 % 10), BitVec.ofNat 8 (b.toNat % 10)]

/-- The end of a skip: pc already holds a + 2 and gets a further 2 where the condition holds (R123, R143). -/
def skipIf (c : Bool) (s : State) : Host.Outcome State Fault Refusal :=
  .next (if c then { s with pc := s.pc + 2 } else s)

end Sys2Proof.Machine
end

