-- ==== Sys2Proof/Machine/Alu.lean ====
section
/-! DEFINITION. The register and ALU instructions (42_alu.md). Operands are read before any write (R10). -/

namespace Sys2Proof.Machine

/-- LD Vx, nn (R160). -/
def execLdImm (x : Reg) (nn : Byte) (s : State) : Host.Outcome State Fault Refusal :=
  .next (s.setV x nn)

/-- ADD Vx, nn (R161): modulo 256, no flag. -/
def execAddImm (x : Reg) (nn : Byte) (s : State) : Host.Outcome State Fault Refusal :=
  .next (s.setV x (s.V x + nn))

/-- LD Vx, Vy (R162). -/
def execLdReg (x y : Reg) (s : State) : Host.Outcome State Fault Refusal :=
  .next (s.setV x (s.V y))

/-- OR Vx, Vy (R163). -/
def execOrReg (x y : Reg) (s : State) : Host.Outcome State Fault Refusal :=
  .next (s.setV x (s.V x ||| s.V y))

/-- AND Vx, Vy (R164). -/
def execAndReg (x y : Reg) (s : State) : Host.Outcome State Fault Refusal :=
  .next (s.setV x (s.V x &&& s.V y))

/-- XOR Vx, Vy (R165). -/
def execXorReg (x y : Reg) (s : State) : Host.Outcome State Fault Refusal :=
  .next (s.setV x (s.V x ^^^ s.V y))

/-- ADD Vx, Vy (R166). -/
def execAddReg (x y : Reg) (s : State) : Host.Outcome State Fault Refusal :=
  .next (s.setVWithFlag x (s.V x + s.V y) (carryOut (s.V x) (s.V y)))

/-- SUB Vx, Vy (R167). -/
def execSubReg (x y : Reg) (s : State) : Host.Outcome State Fault Refusal :=
  .next (s.setVWithFlag x (s.V x - s.V y) (notBorrow (s.V x) (s.V y)))

/-- SHR Vx (R168): Vx is shifted, y is ignored. -/
def execShr (x : Reg) (s : State) : Host.Outcome State Fault Refusal :=
  .next (s.setVWithFlag x (s.V x >>> 1) (lowBit (s.V x)))

/-- SUBN Vx, Vy (R169). -/
def execSubnReg (x y : Reg) (s : State) : Host.Outcome State Fault Refusal :=
  .next (s.setVWithFlag x (s.V y - s.V x) (notBorrow (s.V y) (s.V x)))

/-- SHL Vx (R170): Vx is shifted, y is ignored. -/
def execShl (x : Reg) (s : State) : Host.Outcome State Fault Refusal :=
  .next (s.setVWithFlag x (s.V x <<< 1) (highBit (s.V x)))

/-- RND Vx, nn (R171): a free byte, under the mask nn. -/
def execRnd (x : Reg) (nn : Byte) (s : State) : Host.Outcome State Fault Refusal :=
  .next ((draw s).2.setV x ((draw s).1 &&& nn))

end Sys2Proof.Machine
end

