-- ==== Sys2Proof/Machine/Control.lean ====
section
/-! DEFINITION. The control-flow instructions (41_control_flow.md). Each meaning is the execute part: pc holds
a + 2 when it begins (R123, R130). -/

namespace Sys2Proof.Machine

/-- RET (R140). -/
def execRet (s : State) : Host.Outcome State Fault Refusal :=
  match s.pop with
  | some (r, t) => .next { t with pc := r }
  | none => raise .stackUnderflow .ret s

/-- JP nnn (R141). -/
def execJp (nnn : Addr12) (s : State) : Host.Outcome State Fault Refusal :=
  .next { s with pc := zextAddr nnn }

/-- CALL nnn (R142): pushes the advanced pc. -/
def execCall (nnn : Addr12) (s : State) : Host.Outcome State Fault Refusal :=
  match s.push s.pc with
  | some t => .next { t with pc := zextAddr nnn }
  | none => raise .stackOverflow (.call nnn) s

/-- SE Vx, nn (R143). -/
def execSeImm (x : Reg) (nn : Byte) (s : State) : Host.Outcome State Fault Refusal :=
  skipIf (s.V x == nn) s

/-- SNE Vx, nn (R144). -/
def execSneImm (x : Reg) (nn : Byte) (s : State) : Host.Outcome State Fault Refusal :=
  skipIf (s.V x != nn) s

/-- SE Vx, Vy (R145): n is ignored. -/
def execSeReg (x y : Reg) (s : State) : Host.Outcome State Fault Refusal :=
  skipIf (s.V x == s.V y) s

/-- SNE Vx, Vy (R146): n is ignored. -/
def execSneReg (x y : Reg) (s : State) : Host.Outcome State Fault Refusal :=
  skipIf (s.V x != s.V y) s

/-- JP V0, nnn (R147). -/
def execJpV0 (nnn : Addr12) (s : State) : Host.Outcome State Fault Refusal :=
  .next { s with pc := offsetTarget (s.V 0) nnn }

end Sys2Proof.Machine
end

