-- ==== Sys2Proof/Machine/Display.lean ====
section
/-! DEFINITION. The display instructions (44_display.md). -/

namespace Sys2Proof.Machine

/-- CLS (R210). -/
def execCls (s : State) : Host.Outcome State Fault Refusal :=
  .next { s with fb := Framebuffer.clear }

/-- DRW Vx, Vy, n (R211): the rows are read before anything is written, the coordinates before VF is. -/
def execDrw (x y : Reg) (n : Nibble) (s : State) : Host.Outcome State Fault Refusal :=
  match s.readBytes (s.ea 0) n.val with
  | some rows =>
    let z := s.fb.blit (s.V x).toNat (s.V y).toNat rows
    .next ({ s with fb := z.1 }.setVF z.2)
  | none => raise .outOfBounds (.drw x y n) s

end Sys2Proof.Machine
end

