-- ==== Sys2Proof/Machine/Index.lean ====
section
/-! DEFINITION. The index-register and memory instructions (43_index_memory.md). None of them but LD I, ADD I and
LD F writes I (R196). -/

namespace Sys2Proof.Machine

/-- LD I, nnn (R190). -/
def execLdI (nnn : Addr12) (s : State) : Host.Outcome State Fault Refusal :=
  .next { s with i := zextAddr nnn }

/-- ADD I, Vx (R191): no flag, unless `ADD_I_SETS_VF`. -/
def execAddI (x : Reg) (s : State) : Host.Outcome State Fault Refusal :=
  let t := if s.cfg.addISetsVF then s.setVF (passesMemory s.i (s.V x)) else s
  .next { t with i := addIndex s.i (s.V x) }

/-- LD F, Vx (R192): OutOfBounds where Vx > 15. -/
def execLdF (x : Reg) (s : State) : Host.Outcome State Fault Refusal :=
  match glyphAddress s.cfg (s.V x) with
  | some a => .next { s with i := a }
  | none => raise .outOfBounds (.ldF x) s

/-- LD B, Vx (R193): the three digits at I, I+1, I+2; OutOfBounds before any write. -/
def execLdB (x : Reg) (s : State) : Host.Outcome State Fault Refusal :=
  match s.writeBytes (s.ea 0) (bcdDigits (s.V x)) with
  | some t => .next t
  | none => raise .outOfBounds (.ldB x) s

/-- LD [I], Vx (R194): V0..Vx at I, I+1, ...; OutOfBounds before any write. -/
def execLdMemVx (x : Reg) (s : State) : Host.Outcome State Fault Refusal :=
  match s.writeBytes (s.ea 0) (s.regsUpTo x) with
  | some t => .next t
  | none => raise .outOfBounds (.ldMemVx x) s

/-- LD Vx, [I] (R195): V0..Vx from I, I+1, ...; OutOfBounds before any write. -/
def execLdVxMem (x : Reg) (s : State) : Host.Outcome State Fault Refusal :=
  match s.readBytes (s.ea 0) (x.val + 1) with
  | some bs => .next { s with v := loadRegs bs 0 s.v }
  | none => raise .outOfBounds (.ldVxMem x) s

end Sys2Proof.Machine
end

