-- ==== Sys2Proof/Machine/TimerKey.lean ====
section
/-! DEFINITION. The timer and keypad instructions (45_timers_input.md). -/

namespace Sys2Proof.Machine

/-- SKP Vx (R230): OutOfBounds where Vx > 15. -/
def execSkp (x : Reg) (s : State) : Host.Outcome State Fault Refusal :=
  match keyIndex (s.V x) with
  | some k => skipIf (s.pressed k) s
  | none => raise .outOfBounds (.skp x) s

/-- SKNP Vx (R231): OutOfBounds where Vx > 15. -/
def execSknp (x : Reg) (s : State) : Host.Outcome State Fault Refusal :=
  match keyIndex (s.V x) with
  | some k => skipIf (!s.pressed k) s
  | none => raise .outOfBounds (.sknp x) s

/-- LD Vx, DT (R232). -/
def execLdVxDT (x : Reg) (s : State) : Host.Outcome State Fault Refusal :=
  .next (s.setV x s.dt)

/-- LD Vx, K (R233): the engine is suspended; a key edge ends the wait (60_exceptions.md R263). -/
def execLdVxK (x : Reg) (s : State) : Host.Outcome State Fault Refusal :=
  .next { s with run := .suspended x }

/-- LD DT, Vx (R234). -/
def execLdDTVx (x : Reg) (s : State) : Host.Outcome State Fault Refusal :=
  .next { s with dt := s.V x }

/-- LD ST, Vx (R235). -/
def execLdSTVx (x : Reg) (s : State) : Host.Outcome State Fault Refusal :=
  .next { s with st := s.V x }

end Sys2Proof.Machine
end

