-- ==== Sys2Proof/Machine/Engine.lean ====
section
/-! DEFINITION. The engine cycle (40_engine_cycle.md) and the delivery of the block's events
(60_exceptions.md R262 to R267). -/

namespace Sys2Proof.Machine

/-- Fetch (R121): the big-endian word at pc; none is OutOfBounds. -/
def fetch (s : State) : Option Word := s.read16 s.pc.toNat

/-- Advance (R123). -/
def advance (s : State) : State := { s with pc := s.pc + 2 }

/-- Fetch, decode, advance, dispatch, execute, in this order (R120); the first fault ends the step (R252). -/
def cycle (s : State) : Host.Outcome State Fault Refusal :=
  match fetch s with
  | none => takeFault .outOfBounds s.pc none s
  | some w =>
    match dispatch s.cfg w with
    | .error _ => takeFault .unknownOpcode s.pc (some w) s
    | .ok i => exec i (advance s)

/-- One step of the engine: taken only when RUN = Ready (R120, R126, R127); the run has then begun (R265). -/
def engineStep (s : State) : Host.Outcome State Fault Refusal :=
  match s.run with
  | .ready => cycle { s with started := true }
  | .suspended _ => .fault .waitingForKey
  | .halted => .fault .halted

/-- The ROM loader's event (R265): once, before any other event; a load that fails begins no run. -/
def deliverLoad (bytes : List Byte) (origin : Nat) (s : State) : Host.Outcome State Fault Refusal :=
  if s.started then .refused .loadAfterStart
  else
    match s.load bytes origin with
    | some t => .next { t with started := true }
    | none => .refused .loadError

/-- The input source's event (R261): an index above 15 is refused; enabled once the load is complete (R264). -/
def deliverKey (k : Nat) (p : Bool) (s : State) : Host.Outcome State Fault Refusal :=
  if h : k < 16 then
    if s.started then .next (setKeyState ⟨k, h⟩ p s) else .refused .notLoaded
  else .refused .keyOutOfRange

/-- One event of the block (R262), where it is enabled (R264). -/
def deliver (e : Event) (s : State) : Host.Outcome State Fault Refusal :=
  if s.run = .halted then .fault .halted
  else
    match e with
    | .step => engineStep s
    | .tick => if s.started then .next (tick s) else .refused .notLoaded
    | .key k p => deliverKey k p s
    | .snapshot => if s.started then .next s else .refused .notLoaded
    | .load bytes origin => deliverLoad bytes origin s

/-- The next event of the run (R264): the first of `env`, or the engine's step while `env` is empty. -/
def nextEvent (s : State) : Host.Outcome State Fault Refusal :=
  match s.env with
  | [] => engineStep s
  | e :: rest => deliver e { s with env := rest }

end Sys2Proof.Machine
end

