-- ==== Sys2Proof/Safety.lean ====
section
/-! DEFINITION. What counts as a bad state, and the invariant of the machine, in the terms claims use. -/

namespace Sys2Proof.Machine

/-- A faulted run: its state counts as bad (60_exceptions.md R272). -/
def State.Bad (s : State) : Prop := s.run = .halted

/-- What every reachable state satisfies (10_state.md). -/
structure State.Inv (s : State) : Prop where
  /-- The parameters are as 00_scope.md R7 asks. -/
  cfg_wf : s.cfg.wf
  /-- Memory is in canonical form, the model's own form of the array of R32 (log entry 10), with every cell in its
  4096 bytes. -/
  mem_wf : s.mem.wf (resetByte s.cfg)
  /-- pc never passes 0x10FE, so it never wraps (R25, R36). -/
  pc_le : s.pc.toNat ≤ 0x10FE
  /-- Every stack slot holds the pc after a CALL, at most 4096 (R25, R140). -/
  stack_le : ∀ d : Fin 16, (s.stack[d.val]).toNat ≤ 4096
  /-- RUN is Halted exactly when FAULT is not empty (R31, R272). -/
  halted_iff : s.run = .halted ↔ s.fault.isSome = true
  /-- After a fault pc is the address recorded (R128). -/
  fault_pc : ∀ r, s.fault = some r → r.pc = s.pc
  /-- The address of a fault that records a word is one a fetch succeeded at; a fetch fault's is not (R121). -/
  fault_word : ∀ r, s.fault = some r → (r.word = none ↔ r.pc.toNat > 0xFFE)

end Sys2Proof.Machine
end

