-- ==== Sys2Proof/Certificates/Slice0/Obligations.lean ====
section
/-! DEFINITION. The statements about the model. Each docstring says which rule of spec/ it formalises. -/

namespace Sys2Proof.Machine

/-- The parts of the state, one by one: what a frame speaks of. -/
inductive Part where
  | v (x : Reg)
  | i
  | pc
  | sp
  | stack (d : Fin 16)
  | dt
  | st
  | run
  | fault
  | mem (a : Nat)
  | pixel (x y : Nat)
  | key (k : Fin 16)
  | started
  | cfg
  | draws
  | env

/-- The part `p` holds in `t` what it held in `s`; memory is read byte by byte, the framebuffer pixel by pixel. -/
def Part.same (s t : State) : Part → Prop
  | .v x => t.V x = s.V x
  | .i => t.i = s.i
  | .pc => t.pc = s.pc
  | .sp => t.sp = s.sp
  | .stack d => t.stack[d.val] = s.stack[d.val]
  | .dt => t.dt = s.dt
  | .st => t.st = s.st
  | .run => t.run = s.run
  | .fault => t.fault = s.fault
  | .mem a => t.byte a = s.byte a
  | .pixel x y => t.fb.pixel x y = s.fb.pixel x y
  | .key k => t.pressed k = s.pressed k
  | .started => t.started = s.started
  | .cfg => t.cfg = s.cfg
  | .draws => t.draws = s.draws
  | .env => t.env = s.env

/-- Every part outside `W` is unchanged from `s` to `t`. -/
def OnlyChanges (W : Part → Prop) (s t : State) : Prop := ∀ p, ¬ W p → p.same s t

/-- The instruction `i` has the encoding `w` and no other word decodes to it. -/
def EncodedAs (i : Instr) (w : Nat) : Prop := ∀ u, decode u = .ok i ↔ u = BitVec.ofNat 16 w

/-- The execute part of `i` raises the fault `k` (R128): RUN <- Halted, FAULT <- (k, address, word), pc back at
the address of the instruction, and nothing else changes. `s` is the state after the advance of R123. -/
def FaultsWith (k : FaultKind) (i : Instr) (s : State) : Prop :=
  ∃ t, exec i s = .next t ∧ t.run = .halted ∧ t.pc = s.pc - 2 ∧
    t.fault = some ⟨k, s.pc - 2, some (encode i)⟩ ∧
    OnlyChanges (fun p => p = .pc ∨ p = .run ∨ p = .fault) s t

/-- The result `r` and the flag `f` of one of R166 to R170, from `s` to `t`: at the default the result is written
last, so at x = 15 VF keeps the result (D2); under `VF_FLAG_LAST` the flag is (R7). -/
def FlaggedResult (x : Reg) (r f : Nat) (s t : State) : Prop :=
  OnlyChanges (fun p => p = .v x ∨ p = .v vf) s t ∧
  (s.cfg.vfFlagLast = false → (t.V x).toNat = r ∧ (x ≠ vf → (t.V vf).toNat = f)) ∧
  (s.cfg.vfFlagLast = true → (t.V vf).toNat = f ∧ (x ≠ vf → (t.V x).toNat = r))

/-- A 1 bit of the sprite of `n` rows at I, drawn at (V[x], V[y]), lands on the pixel in column `px`, row `py`
(R211): row r, column c, bit 7 first, both coordinates wrapped. -/
def SpriteBit (s : State) (x y : Reg) (n px py : Nat) : Prop :=
  ∃ r c, r < n ∧ c < 8 ∧ (s.byte (s.ea r)).getLsbD (7 - c) = true ∧
    px = ((s.V x).toNat + c) % 64 ∧ py = ((s.V y).toNat + r) % 32

/-- The words some row of R94 matches, by the value of their fields (R95 to R99). -/
def DefinedWord (w : Word) : Prop :=
  (bits w 15 12 = 0x0 ∧ (bits w 11 0 = 0x0E0 ∨ bits w 11 0 = 0x0EE)) ∨
  (bits w 15 12 = 0x8 ∧ (bits w 3 0 ≤ 7 ∨ bits w 3 0 = 0xE)) ∨
  (bits w 15 12 = 0xE ∧ (bits w 7 0 = 0x9E ∨ bits w 7 0 = 0xA1)) ∨
  (bits w 15 12 = 0xF ∧ bits w 7 0 ∈ [0x07, 0x0A, 0x15, 0x18, 0x1E, 0x29, 0x33, 0x55, 0x65]) ∨
  bits w 15 12 ∈ [0x1, 0x2, 0x3, 0x4, 0x5, 0x6, 0x7, 0x9, 0xA, 0xB, 0xC, 0xD]

/-- What makes the execute part of each instruction fault, and how (R250). -/
def execFault (s : State) : Instr → Option FaultKind
  | .ret => if s.sp.val = 0 then some .stackUnderflow else none
  | .call _ => if s.sp.val = 16 then some .stackOverflow else none
  | .drw _ _ n => if n.val > 0 ∧ s.ea n.val - 1 > 0xFFF then some .outOfBounds else none
  | .skp x => if (s.V x).toNat > 15 then some .outOfBounds else none
  | .sknp x => if (s.V x).toNat > 15 then some .outOfBounds else none
  | .ldF x => if (s.V x).toNat > 15 then some .outOfBounds else none
  | .ldB _ => if s.ea 2 > 0xFFF then some .outOfBounds else none
  | .ldMemVx x => if s.ea x.val > 0xFFF then some .outOfBounds else none
  | .ldVxMem x => if s.ea x.val > 0xFFF then some .outOfBounds else none
  | .cls => none
  | .jp _ => none
  | .seImm _ _ => none
  | .sneImm _ _ => none
  | .seReg _ _ _ => none
  | .ldImm _ _ => none
  | .addImm _ _ => none
  | .ldReg _ _ => none
  | .orReg _ _ => none
  | .andReg _ _ => none
  | .xorReg _ _ => none
  | .addReg _ _ => none
  | .subReg _ _ => none
  | .shr _ _ => none
  | .subnReg _ _ => none
  | .shl _ _ => none
  | .sneReg _ _ _ => none
  | .ldI _ => none
  | .jpV0 _ => none
  | .rnd _ _ => none
  | .ldVxDT _ => none
  | .ldVxK _ => none
  | .ldDTVx _ => none
  | .ldSTVx _ => none
  | .addI _ => none

end Sys2Proof.Machine

open Sys2Proof Sys2Proof.Machine

/-! ### Encoding and decoding (30_encoding.md) -/

/-- Words written out from the map of R94, one of each of the sixteen groups (the values of `op`), decode to the
instruction they stand for; and a word of group 0x0 that no row matches decodes to nothing (R95). -/
def Obligations.SampleWordsDecode : Prop :=
  decode 0b0000000011100000 = .ok .cls ∧
  decode 0b0001101010111100 = .ok (.jp 0xABC) ∧
  decode 0b0010001100000000 = .ok (.call 0x300) ∧
  decode 0b0011001101000010 = .ok (.seImm 3 0x42) ∧
  decode 0b0100001101000010 = .ok (.sneImm 3 0x42) ∧
  decode 0b0101000100100000 = .ok (.seReg 1 2 0) ∧
  decode 0b0110000000001010 = .ok (.ldImm 0 0x0A) ∧
  decode 0b0111001000100000 = .ok (.addImm 2 0x20) ∧
  decode 0b1000000000010100 = .ok (.addReg 0 1) ∧
  decode 0b1001000100100000 = .ok (.sneReg 1 2 0) ∧
  decode 0b1010001000000000 = .ok (.ldI 0x200) ∧
  decode 0b1011001100000000 = .ok (.jpV0 0x300) ∧
  decode 0b1100001100001111 = .ok (.rnd 3 0x0F) ∧
  decode 0b1101000100100101 = .ok (.drw 1 2 5) ∧
  decode 0b1110000110011110 = .ok (.skp 1) ∧
  decode 0b1111001001010101 = .ok (.ldMemVx 2) ∧
  decode 0b0000000111100000 = .error (.unknownOpcode 0x01E0)

/-- R94, R102: the word of every instruction decodes to that instruction, every operand at every value. -/
def Obligations.DecodeOfEncode : Prop := ∀ i : Instr, decode (encode i) = .ok i

/-- R102: a word that decodes to an instruction is the instruction's word: no bit is dropped and no two words
decode alike. -/
def Obligations.EncodeOfDecode : Prop := ∀ (w : Word) (i : Instr), decode w = .ok i → encode i = w

/-- R95 to R101: a word decodes to an instruction exactly when its fields are those of a row; every other word is
rejected by name, with the word. -/
def Obligations.DecodingIsTotalOverTheMap : Prop :=
  ∀ w : Word, (DefinedWord w → ∃ i, decode w = .ok i) ∧
    (¬ DefinedWord w → decode w = .error (.unknownOpcode w))

/-- R7, R99: under `STRICT_5XY0` exactly the words 5xyn and 9xyn with n ≠ 0 are lost to dispatch; without it
dispatch is the decoder. -/
def Obligations.StrictSwitchRemovesExactly5xynAnd9xyn : Prop :=
  ∀ (c : Config) (w : Word),
    (c.strict5xy0 = true ∧ (bits w 15 12 = 5 ∨ bits w 15 12 = 9) ∧ bits w 3 0 ≠ 0 →
      dispatch c w = .error (.unknownOpcode w)) ∧
    (c.strict5xy0 = false ∨ (bits w 15 12 ≠ 5 ∧ bits w 15 12 ≠ 9) ∨ bits w 3 0 = 0 →
      dispatch c w = decode w)

/-! ### The engine cycle (40_engine_cycle.md) -/

/-- R120, R123, R125: where the bytes at pc decode to an instruction the machine has, the step is the instruction's
execute part in the state whose pc is advanced by 2 (and whose run has begun, the model's `started`, log entry 5),
both when the engine's turn is the default (`env` empty) and when it is scheduled (log entry 4). -/
def Obligations.StepRunsTheDecodedInstruction : Prop :=
  ∀ (s : State) (i : Instr), s.run = .ready → s.pc.toNat ≤ 0xFFE →
    decode (wordOfBytes (s.byte s.pc.toNat) (s.byte (s.pc.toNat + 1))) = .ok i → i.wf s.cfg = true →
    (s.env = [] → step s = exec i { s with pc := s.pc + 2, started := true }) ∧
    (∀ rest, s.env = .step :: rest → step s = exec i { s with pc := s.pc + 2, started := true, env := rest })

/-- The host's placed word is what the next step runs: the model's own interface (log entry 26). -/
def Obligations.PlacedWordIsRunNext : Prop :=
  ∀ (s : State) (w : Nat) (i : Instr), s.mem.wf (resetByte s.cfg) → w < 65536 →
    decode (BitVec.ofNat 16 w) = .ok i → i.wf s.cfg = true →
    step (s.withFetchWord 16 w) =
      exec i { s.withFetchWord 16 w with pc := (s.withFetchWord 16 w).pc + 2 }

/-- R121, R64: the fetch reads the big-endian word at pc where pc and pc + 1 are in bounds; where pc > 0xFFE the
step raises OutOfBounds with fault_pc = pc and no word. -/
def Obligations.FetchReadsABigEndianWordOrFaults : Prop :=
  ∀ s : State,
    (s.pc.toNat ≤ 0xFFE → ∃ w, fetch s = some w ∧
      w.toNat = (s.byte s.pc.toNat).toNat * 256 + (s.byte (s.pc.toNat + 1)).toNat) ∧
    (s.pc.toNat > 0xFFE → fetch s = none ∧ (s.run = .ready → ∃ t, engineStep s = .next t ∧
      t.run = .halted ∧ t.fault = some ⟨.outOfBounds, s.pc, none⟩ ∧
      OnlyChanges (fun p => p = .run ∨ p = .fault ∨ (p = .started ∧ s.started = false)) s t))

/-- R124, R7: a word that selects no row, or that `STRICT_5XY0` takes out of the map, raises UnknownOpcode with
fault_pc = a and word = w, and no instruction runs. -/
def Obligations.UnknownWordHaltsTheEngine : Prop :=
  ∀ (s : State) (w : Word), s.run = .ready → fetch s = some w →
    (¬ DefinedWord w ∨
      (s.cfg.strict5xy0 = true ∧ (bits w 15 12 = 5 ∨ bits w 15 12 = 9) ∧ bits w 3 0 ≠ 0)) →
    ∃ t, engineStep s = .next t ∧ t.run = .halted ∧ t.fault = some ⟨.unknownOpcode, s.pc, some w⟩ ∧
      OnlyChanges (fun p => p = .run ∨ p = .fault ∨ (p = .started ∧ s.started = false)) s t

/-- R128: when a phase raises a fault, the step's only effects are RUN <- Halted and FAULT <- (kind, a, word); pc is
the address of the instruction; the word is the word fetched, absent exactly for a fault of the fetch. (A step taken
before any load also sets the model's `started`, log entry 5.) -/
def Obligations.FaultsArePrecise : Prop :=
  ∀ s t : State, engineStep s = .next t → t.run = .halted →
    ∃ k, t.fault = some ⟨k, s.pc, fetch s⟩ ∧ t.pc = s.pc ∧
      OnlyChanges (fun p => p = .run ∨ p = .fault ∨ (p = .started ∧ s.started = false)) s t

/-- R250, R251, R252: every execute part answers a next state from every Ready state; it faults exactly under the
condition of the table, with the kind of the table; otherwise RUN is not Halted and FAULT is untouched; and the
numeric labels of the kinds are 1 to 4. -/
def Obligations.ExecutePartsFaultExactlyWhereListed : Prop :=
  (∀ (i : Instr) (s : State), s.run = .ready →
    (∀ k, execFault s i = some k → FaultsWith k i s) ∧
    (execFault s i = none → ∃ t, exec i s = .next t ∧ t.run ≠ .halted ∧ t.fault = s.fault)) ∧
  FaultKind.code .outOfBounds = 1 ∧ FaultKind.code .stackOverflow = 2 ∧
  FaultKind.code .stackUnderflow = 3 ∧ FaultKind.code .unknownOpcode = 4

/-- R126: while RUN = Suspended(x) the engine has no step, asked for directly or as an event. Once the load is
complete (R264) a tick is taken and leaves RUN and pc, and the press of any released key is taken, lifts the
suspension and leaves pc. No event that is taken moves pc, and none but such a press changes RUN. -/
def Obligations.SuspendedEngineHasNoStep : Prop :=
  ∀ (s : State) (x : Reg), s.run = .suspended x →
    (∀ t, engineStep s ≠ .next t ∧ deliver .step s ≠ .next t) ∧
    (s.started = true → ∃ t, deliver .tick s = .next t ∧ t.run = s.run ∧ t.pc = s.pc) ∧
    (s.started = true → ∀ k : Fin 16, s.pressed k = false →
      ∃ t, deliver (.key k.val true) s = .next t ∧ t.run = .ready ∧ t.pc = s.pc) ∧
    ∀ (e : Event) (t : State), deliver e s = .next t → t.pc = s.pc ∧
      (t.run = s.run ∨ ∃ k : Fin 16, e = .key k.val true ∧ s.pressed k = false ∧ t.run = .ready)

/-- R127, R272: while RUN = Halted no step and no other event is taken: Halted is permanent. -/
def Obligations.HaltedIsPermanent : Prop :=
  ∀ s t : State, s.run = .halted →
    step s ≠ .next t ∧ engineStep s ≠ .next t ∧ ∀ e, deliver e s ≠ .next t

/-- R21, R23, R26, R29, R34, R35, R63: the instructions that change each of these parts: VF is written as a side
effect only by ADD, SUB, SHR, SUBN, SHL, DRW and (under `ADD_I_SETS_VF`) ADD I, and else only where it is named as
the destination; I only by LD I, ADD I and LD F; the framebuffer only by CLS and DRW; the stack and SP only by CALL
and RET; memory only by LD B and LD [I]; DT and ST only by LD DT and LD ST; and no instruction writes KEY. That no
instruction writes `cfg`, `env` and `started` is of the model's own fields (log entries 7, 4 and 5).
V0..VE, pc, RUN and FAULT: RegistersPcRunAndFaultChangeOnlyWhereNamed. -/
def Obligations.OnlyTheNamedInstructionsWrite : Prop :=
  ∀ (i : Instr) (s t : State), exec i s = .next t →
    (t.V vf ≠ s.V vf →
      (∃ x y, i = .addReg x y ∨ i = .subReg x y ∨ i = .shr x y ∨ i = .subnReg x y ∨ i = .shl x y) ∨
      (∃ x y n, i = .drw x y n) ∨ (s.cfg.addISetsVF = true ∧ ∃ x, i = .addI x) ∨
      (∃ nn, i = .ldImm vf nn ∨ i = .addImm vf nn ∨ i = .rnd vf nn) ∨
      (∃ y, i = .ldReg vf y ∨ i = .orReg vf y ∨ i = .andReg vf y ∨ i = .xorReg vf y) ∨
      i = .ldVxDT vf ∨ i = .ldVxMem vf) ∧
    (t.i ≠ s.i → (∃ nnn, i = .ldI nnn) ∨ ∃ x, i = .addI x ∨ i = .ldF x) ∧
    (t.fb ≠ s.fb → i = .cls ∨ ∃ x y n, i = .drw x y n) ∧
    (t.stack ≠ s.stack → ∃ nnn, i = .call nnn) ∧
    (t.sp ≠ s.sp → i = .ret ∨ ∃ nnn, i = .call nnn) ∧
    (t.mem ≠ s.mem → ∃ x, i = .ldB x ∨ i = .ldMemVx x) ∧
    (t.dt ≠ s.dt → ∃ x, i = .ldDTVx x) ∧
    (t.st ≠ s.st → ∃ x, i = .ldSTVx x) ∧
    t.key = s.key ∧ t.cfg = s.cfg ∧ t.env = s.env ∧ t.started = s.started

/-- R29, R22: no instruction reads ST: whatever ST holds, every instruction does the same to every other part of the
state (and LD ST writes it the same). For RND, that both executions get the same oracle byte is the model's choice
(log entry 6: the byte is fixed by the counter `draws`), since R268 lets the oracle answer any byte. -/
def Obligations.NoInstructionReadsTheSoundTimer : Prop :=
  ∀ (i : Instr) (s t : State) (b : Byte), exec i s = .next t →
    exec i { s with st := b } = .next (if (∃ x, i = .ldSTVx x) then t else { t with st := b })

/-! ### Reset and the invariant (70_reset_and_hazards.md, 10_state.md) -/

/-- R290: the state after reset, item by item, of every machine whose parameters are as R7 asks, the default one
among them. -/
def Obligations.ResetLeavesTheListedState : Prop :=
  State.reset = State.resetWith {} ∧ Config.wf {} ∧ ∀ (c : Config) (s : State), c.wf → s = State.resetWith c →
    (∀ x, s.V x = 0) ∧ s.i = 0 ∧ s.pc = 0x200 ∧ s.sp = 0 ∧ (∀ d : Fin 16, s.stack[d.val] = 0) ∧
    s.dt = 0 ∧ s.st = 0 ∧ s.run = .ready ∧ s.fault = none ∧ s.cfg = c ∧
    (∀ k, k < 80 → some (s.byte (c.fontBase + k)) = c.fontData[k]?) ∧
    (∀ a, a < c.fontBase ∨ c.fontBase + 80 ≤ a → s.byte a = 0) ∧
    (∀ x y, s.fb.pixel x y = false) ∧ ∀ k, s.pressed k = false

/-- R25, R31, R32: the reset state of every machine whose parameters are as R7 asks has the invariant. The clause
that memory is in canonical form is of the model's own form of the array of R32 (log entry 10). -/
def Obligations.ResetSatisfiesTheInvariant : Prop :=
  ∀ c : Config, c.wf → (State.resetWith c).Inv

/-- R25, R31, R128: every step keeps the invariant: pc stays at most 0x10FE and the stack slots at most 4096, so
pc never wraps; memory keeps its canonical form (the model's own form of the array of R32, log entry 10); RUN is
Halted exactly when FAULT is set, and FAULT names pc. The step may be the engine's or any event `env` holds (log
entry 4). -/
def Obligations.EveryStepKeepsTheInvariant : Prop :=
  ∀ s t : State, s.Inv → step s = .next t → t.Inv

/-- R293, which the spec derives: with nothing loaded, the first engine step raises UnknownOpcode at 0x200 with the word
0x0000. -/
def Obligations.EmptyMachineFaultsAtTheEntryPoint : Prop :=
  ∃ t, engineStep State.reset = .next t ∧ t.run = .halted ∧ t.pc = 0x200 ∧
    t.fault = some ⟨.unknownOpcode, 0x200, some 0x0000⟩

/-! ### Control flow (41_control_flow.md). In every statement about exec, `s` is the state after the advance, so
s.pc is a + 2. -/

/-- R140: RET. -/
def Obligations.RetPopsTheReturnAddress : Prop :=
  EncodedAs .ret 0x00EE ∧ ∀ s : State,
    (s.sp.val = 0 → FaultsWith .stackUnderflow .ret s) ∧
    ∀ d : Fin 16, s.sp.val = d.val + 1 → ∃ t, exec .ret s = .next t ∧
      t.pc = s.stack[d.val] ∧ t.sp.val = d.val ∧ OnlyChanges (fun p => p = .pc ∨ p = .sp) s t

/-- R141: JP nnn. -/
def Obligations.JpJumpsToTheAddress : Prop :=
  ∀ (nnn : Addr12) (s : State), EncodedAs (.jp nnn) (0x1000 + nnn.toNat) ∧
    ∃ t, exec (.jp nnn) s = .next t ∧ t.pc.toNat = nnn.toNat ∧ OnlyChanges (fun p => p = .pc) s t

/-- R142: CALL nnn. -/
def Obligations.CallPushesTheAdvancedPc : Prop :=
  ∀ (nnn : Addr12) (s : State), EncodedAs (.call nnn) (0x2000 + nnn.toNat) ∧
    (s.sp.val = 16 → FaultsWith .stackOverflow (.call nnn) s) ∧
    ∀ d : Fin 16, s.sp.val = d.val → ∃ t, exec (.call nnn) s = .next t ∧
      t.stack[d.val] = s.pc ∧ t.sp.val = d.val + 1 ∧ t.pc.toNat = nnn.toNat ∧
      OnlyChanges (fun p => p = .pc ∨ p = .sp ∨ p = .stack d) s t

/-- R140, R142, R26: a RET in any state whose stack is as a CALL left it returns to the instruction after the CALL,
with the depth and every address held as before the CALL: the stack is last in, first out. -/
def Obligations.RetUndoesCall : Prop :=
  ∀ (nnn : Addr12) (s t u : State), s.sp.val < 16 → exec (.call nnn) s = .next t →
    u.sp = t.sp → u.stack = t.stack →
    ∃ r, exec .ret u = .next r ∧ r.pc = s.pc ∧ r.sp = s.sp ∧
      ∀ d : Fin 16, d.val < s.sp.val → r.stack[d.val] = s.stack[d.val]

/-- R143, R144: SE Vx, nn and SNE Vx, nn. -/
def Obligations.ImmediateSkips : Prop :=
  ∀ (x : Reg) (nn : Byte) (s : State),
    EncodedAs (.seImm x nn) (0x3000 + x.val * 256 + nn.toNat) ∧
    EncodedAs (.sneImm x nn) (0x4000 + x.val * 256 + nn.toNat) ∧
    (∃ t, exec (.seImm x nn) s = .next t ∧ OnlyChanges (fun p => p = .pc) s t ∧
      t.pc = if s.V x = nn then s.pc + 2 else s.pc) ∧
    ∃ t, exec (.sneImm x nn) s = .next t ∧ OnlyChanges (fun p => p = .pc) s t ∧
      t.pc = if s.V x ≠ nn then s.pc + 2 else s.pc

/-- R145, R146: SE Vx, Vy and SNE Vx, Vy, for every n (that n is ignored is the spec's own inference, R99, D29). -/
def Obligations.RegisterSkips : Prop :=
  ∀ (x y : Reg) (n : Nibble) (s : State),
    EncodedAs (.seReg x y n) (0x5000 + x.val * 256 + y.val * 16 + n.val) ∧
    EncodedAs (.sneReg x y n) (0x9000 + x.val * 256 + y.val * 16 + n.val) ∧
    (∃ t, exec (.seReg x y n) s = .next t ∧ OnlyChanges (fun p => p = .pc) s t ∧
      t.pc = if s.V x = s.V y then s.pc + 2 else s.pc) ∧
    ∃ t, exec (.sneReg x y n) s = .next t ∧ OnlyChanges (fun p => p = .pc) s t ∧
      t.pc = if s.V x ≠ s.V y then s.pc + 2 else s.pc

/-- R147: JP V0, nnn; the sum is not reduced. -/
def Obligations.JpV0AddsTheOffset : Prop :=
  ∀ (nnn : Addr12) (s : State), EncodedAs (.jpV0 nnn) (0xB000 + nnn.toNat) ∧
    ∃ t, exec (.jpV0 nnn) s = .next t ∧ t.pc.toNat = (s.V 0).toNat + nnn.toNat ∧
      OnlyChanges (fun p => p = .pc) s t

/-! ### Register and ALU (42_alu.md) -/

/-- R160, R161, R162: LD Vx, nn; ADD Vx, nn modulo 256 with no flag; LD Vx, Vy. -/
def Obligations.LoadsAndAddImmediate : Prop :=
  ∀ (x y : Reg) (nn : Byte) (s : State),
    EncodedAs (.ldImm x nn) (0x6000 + x.val * 256 + nn.toNat) ∧
    EncodedAs (.addImm x nn) (0x7000 + x.val * 256 + nn.toNat) ∧
    EncodedAs (.ldReg x y) (0x8000 + x.val * 256 + y.val * 16) ∧
    (∃ t, exec (.ldImm x nn) s = .next t ∧ OnlyChanges (fun p => p = .v x) s t ∧ t.V x = nn) ∧
    (∃ t, exec (.addImm x nn) s = .next t ∧ OnlyChanges (fun p => p = .v x) s t ∧
      (t.V x).toNat = ((s.V x).toNat + nn.toNat) % 256) ∧
    ∃ t, exec (.ldReg x y) s = .next t ∧ OnlyChanges (fun p => p = .v x) s t ∧ t.V x = s.V y

/-- R163, R164, R165: OR, AND and XOR, bit by bit, with no flag. -/
def Obligations.BitwiseOperations : Prop :=
  ∀ (x y : Reg) (s : State),
    EncodedAs (.orReg x y) (0x8001 + x.val * 256 + y.val * 16) ∧
    EncodedAs (.andReg x y) (0x8002 + x.val * 256 + y.val * 16) ∧
    EncodedAs (.xorReg x y) (0x8003 + x.val * 256 + y.val * 16) ∧
    (∃ t, exec (.orReg x y) s = .next t ∧ OnlyChanges (fun p => p = .v x) s t ∧
      ∀ k, (t.V x).getLsbD k = ((s.V x).getLsbD k || (s.V y).getLsbD k)) ∧
    (∃ t, exec (.andReg x y) s = .next t ∧ OnlyChanges (fun p => p = .v x) s t ∧
      ∀ k, (t.V x).getLsbD k = ((s.V x).getLsbD k && (s.V y).getLsbD k)) ∧
    ∃ t, exec (.xorReg x y) s = .next t ∧ OnlyChanges (fun p => p = .v x) s t ∧
      ∀ k, (t.V x).getLsbD k = ((s.V x).getLsbD k ^^ (s.V y).getLsbD k)

/-- R166, R167, R169: ADD with the carry, SUB and SUBN with NOT borrow, in VF; at x = 15 VF keeps the result. -/
def Obligations.AddAndSubtractWithFlag : Prop :=
  ∀ (x y : Reg) (s : State),
    EncodedAs (.addReg x y) (0x8004 + x.val * 256 + y.val * 16) ∧
    EncodedAs (.subReg x y) (0x8005 + x.val * 256 + y.val * 16) ∧
    EncodedAs (.subnReg x y) (0x8007 + x.val * 256 + y.val * 16) ∧
    (∃ t, exec (.addReg x y) s = .next t ∧
      FlaggedResult x (((s.V x).toNat + (s.V y).toNat) % 256)
        (if (s.V x).toNat + (s.V y).toNat > 255 then 1 else 0) s t) ∧
    (∃ t, exec (.subReg x y) s = .next t ∧
      FlaggedResult x (((s.V x).toNat + 256 - (s.V y).toNat) % 256)
        (if (s.V x).toNat ≥ (s.V y).toNat then 1 else 0) s t) ∧
    ∃ t, exec (.subnReg x y) s = .next t ∧
      FlaggedResult x (((s.V y).toNat + 256 - (s.V x).toNat) % 256)
        (if (s.V y).toNat ≥ (s.V x).toNat then 1 else 0) s t

/-- R168, R170: SHR and SHL shift Vx by one, y is ignored, and VF gets the bit shifted out. -/
def Obligations.ShiftsByOne : Prop :=
  ∀ (x y : Reg) (s : State),
    EncodedAs (.shr x y) (0x8006 + x.val * 256 + y.val * 16) ∧
    EncodedAs (.shl x y) (0x800E + x.val * 256 + y.val * 16) ∧
    (∃ t, exec (.shr x y) s = .next t ∧
      FlaggedResult x ((s.V x).toNat / 2) ((s.V x).toNat % 2) s t) ∧
    ∃ t, exec (.shl x y) s = .next t ∧
      FlaggedResult x ((s.V x).toNat * 2 % 256) ((s.V x).toNat / 128) s t

/-- R171, R268: RND puts the oracle's byte under the mask nn into Vx. The byte is the free value of log entry 6: the
statement holds whichever it is. -/
def Obligations.RndMasksAFreeByte : Prop :=
  ∀ (x : Reg) (nn : Byte) (s : State), EncodedAs (.rnd x nn) (0xC000 + x.val * 256 + nn.toNat) ∧
    ∃ t r, exec (.rnd x nn) s = .next t ∧ r = Config.draw s.draws ∧
      (∀ k, (t.V x).getLsbD k = (r.getLsbD k && nn.getLsbD k)) ∧
      t.draws = s.draws + 1 ∧ OnlyChanges (fun p => p = .v x ∨ p = .draws) s t

/-! ### Index register and memory (43_index_memory.md, 20_memory.md) -/

/-- R190, R191: LD I, nnn; ADD I, Vx modulo 65536, with no flag unless `ADD_I_SETS_VF`. -/
def Obligations.LoadAndAddToI : Prop :=
  ∀ (nnn : Addr12) (x : Reg) (s : State),
    EncodedAs (.ldI nnn) (0xA000 + nnn.toNat) ∧ EncodedAs (.addI x) (0xF01E + x.val * 256) ∧
    (∃ t, exec (.ldI nnn) s = .next t ∧ t.i.toNat = nnn.toNat ∧ OnlyChanges (fun p => p = .i) s t) ∧
    ∃ t, exec (.addI x) s = .next t ∧ t.i.toNat = (s.i.toNat + (s.V x).toNat) % 65536 ∧
      (s.cfg.addISetsVF = false → OnlyChanges (fun p => p = .i) s t) ∧
      (s.cfg.addISetsVF = true → OnlyChanges (fun p => p = .i ∨ p = .v vf) s t ∧
        (t.V vf).toNat = if s.i.toNat + (s.V x).toNat > 0xFFF then 1 else 0)

/-- R192: LD F, Vx. -/
def Obligations.LdFPointsAtTheGlyph : Prop :=
  ∀ (x : Reg) (s : State), EncodedAs (.ldF x) (0xF029 + x.val * 256) ∧
    ((s.V x).toNat > 15 → FaultsWith .outOfBounds (.ldF x) s) ∧
    (s.cfg.wf → (s.V x).toNat ≤ 15 → ∃ t, exec (.ldF x) s = .next t ∧
      t.i.toNat = s.cfg.fontBase + 5 * (s.V x).toNat ∧ OnlyChanges (fun p => p = .i) s t)

/-- R193: LD B, Vx. The stored addresses are `ea k`, the expression the meaning uses; that the bytes read back needs
memory in canonical form, which every step keeps (EveryStepKeepsTheInvariant). -/
def Obligations.LdBStoresTheDigits : Prop :=
  ∀ (x : Reg) (s : State), EncodedAs (.ldB x) (0xF033 + x.val * 256) ∧
    (s.ea 2 > 0xFFF → FaultsWith .outOfBounds (.ldB x) s) ∧
    (s.ea 2 ≤ 0xFFF → ∃ t, exec (.ldB x) s = .next t ∧
      OnlyChanges (fun p => p = .mem (s.ea 0) ∨ p = .mem (s.ea 1) ∨ p = .mem (s.ea 2)) s t ∧
      (s.mem.wf (resetByte s.cfg) →
        (t.byte (s.ea 0)).toNat = (s.V x).toNat / 100 ∧
        (t.byte (s.ea 1)).toNat = (s.V x).toNat / 10 % 10 ∧
        (t.byte (s.ea 2)).toNat = (s.V x).toNat % 10))

/-- R194: LD [I], Vx. -/
def Obligations.LdMemStoresTheRegisters : Prop :=
  ∀ (x : Reg) (s : State), EncodedAs (.ldMemVx x) (0xF055 + x.val * 256) ∧
    (s.ea x.val > 0xFFF → FaultsWith .outOfBounds (.ldMemVx x) s) ∧
    (s.ea x.val ≤ 0xFFF → ∃ t, exec (.ldMemVx x) s = .next t ∧
      OnlyChanges (fun p => ∃ k : Reg, k ≤ x ∧ p = .mem (s.ea k.val)) s t ∧
      (s.mem.wf (resetByte s.cfg) → ∀ k : Reg, k ≤ x → t.byte (s.ea k.val) = s.V k))

/-- R195: LD Vx, [I]. -/
def Obligations.LdVxMemLoadsTheRegisters : Prop :=
  ∀ (x : Reg) (s : State), EncodedAs (.ldVxMem x) (0xF065 + x.val * 256) ∧
    (s.ea x.val > 0xFFF → FaultsWith .outOfBounds (.ldVxMem x) s) ∧
    (s.ea x.val ≤ 0xFFF → ∃ t, exec (.ldVxMem x) s = .next t ∧
      OnlyChanges (fun p => ∃ k : Reg, k ≤ x ∧ p = .v k) s t ∧
      ∀ k : Reg, k ≤ x → t.V k = s.byte (s.ea k.val))

/-- R194, R195: registers stored by LD [I], Vx come back by LD Vx, [I] in any later state with the same memory and
I, whatever the registers then hold. -/
def Obligations.StoredRegistersLoadBack : Prop :=
  ∀ (x : Reg) (s t u : State), s.mem.wf (resetByte s.cfg) → s.ea x.val ≤ 0xFFF →
    exec (.ldMemVx x) s = .next t → u.mem = t.mem → u.i = t.i → u.cfg = t.cfg →
    ∃ r, exec (.ldVxMem x) u = .next r ∧ ∀ k : Reg, k ≤ x → r.V k = s.V k

/-- R62, R65, R67 (which the spec derives): the accessors answer exactly in [0, 4096); a write changes one byte,
and a read gives the byte last written (memory in canonical form, which every step keeps). -/
def Obligations.MemoryReadsWhatWasWritten : Prop :=
  ∀ (s : State) (a : Nat) (b : Byte),
    ((s.read8 a).isSome = true ↔ a ≤ 0xFFF) ∧ ((s.write8 a b).isSome = true ↔ a ≤ 0xFFF) ∧
    ((s.read16 a).isSome = true ↔ a + 1 ≤ 0xFFF) ∧
    ∀ t, s.write8 a b = some t →
      OnlyChanges (fun p => p = .mem a) s t ∧
      (s.mem.wf (resetByte s.cfg) → t.read8 a = some b ∧ t.mem.wf (resetByte t.cfg))

/-- Two memories in canonical form that read alike at every address are the same data (the model's form, log entry
10, of the array of R32). -/
def Obligations.CanonicalMemoriesThatReadAlikeAreEqual : Prop :=
  ∀ (base : Nat → Byte) (m m' : Memory), m.wf base → m'.wf base →
    (∀ a, m.read base a = m'.read base a) → m = m'

/-- R74: a store onto the next instruction word is seen by the very next fetch: after LD [I], Vx with I = pc and
x ≥ 1, the next word fetched is V0, V1. -/
def Obligations.StoreIsSeenByTheNextFetch : Prop :=
  ∀ (x : Reg) (s t : State), s.mem.wf (resetByte s.cfg) → 1 ≤ x.val → s.i = s.pc →
    s.ea x.val ≤ 0xFFF → exec (.ldMemVx x) s = .next t →
    ∃ w, fetch t = some w ∧ w.toNat = (s.V 0).toNat * 256 + (s.V 1).toNat

/-! ### Display (44_display.md) -/

/-- R210: CLS. -/
def Obligations.ClsTurnsEveryPixelOff : Prop :=
  EncodedAs .cls 0x00E0 ∧ ∀ s : State, ∃ t, exec .cls s = .next t ∧
    (∀ x y, t.fb.pixel x y = false) ∧ OnlyChanges (fun p => ∃ x y, p = .pixel x y) s t

/-- R211: DRW Vx, Vy, n: XOR of the sprite onto the wrapped pixels, the collision in VF, OutOfBounds before any
write. -/
def Obligations.DrwXorsTheSprite : Prop :=
  ∀ (x y : Reg) (n : Nibble) (s : State),
    EncodedAs (.drw x y n) (0xD000 + x.val * 256 + y.val * 16 + n.val) ∧
    (n.val > 0 ∧ s.ea n.val - 1 > 0xFFF → FaultsWith .outOfBounds (.drw x y n) s) ∧
    (n.val = 0 ∨ s.ea n.val - 1 ≤ 0xFFF → ∃ t, exec (.drw x y n) s = .next t ∧
      OnlyChanges (fun p => p = .v vf ∨ ∃ px py, p = .pixel px py) s t ∧
      (∀ px py, px < 64 → py < 32 →
        (SpriteBit s x y n.val px py → t.fb.pixel px py = !s.fb.pixel px py) ∧
        (¬ SpriteBit s x y n.val px py → t.fb.pixel px py = s.fb.pixel px py)) ∧
      ((∃ px py, SpriteBit s x y n.val px py ∧ s.fb.pixel px py = true) → t.V vf = 1) ∧
      (¬ (∃ px py, SpriteBit s x y n.val px py ∧ s.fb.pixel px py = true) → t.V vf = 0))

/-- R213: two identical DRWs in succession (the second with the same coordinates, any pc) restore the framebuffer,
and the second reports VF = 1 iff a 1 bit of the sprite landed on a pixel that was off before the first, that is iff
the first turned a pixel on; a sprite with no 1 bit changes nothing and reports VF = 0. The spec derives it. -/
def Obligations.DrawingTwiceRestoresTheFramebuffer : Prop :=
  ∀ (x y : Reg) (n : Nibble) (s t : State) (a : Word), n.val = 0 ∨ s.ea n.val - 1 ≤ 0xFFF →
    exec (.drw x y n) s = .next t →
    (t.V x = s.V x → t.V y = s.V y → ∃ u, exec (.drw x y n) { t with pc := a } = .next u ∧ u.fb = s.fb ∧
      (u.V vf = 1 ∨ u.V vf = 0) ∧
      (u.V vf = 1 ↔ ∃ px py, SpriteBit s x y n.val px py ∧ s.fb.pixel px py = false) ∧
      (u.V vf = 1 ↔ ∃ px py, s.fb.pixel px py = false ∧ t.fb.pixel px py = true)) ∧
    ((∀ px py, ¬ SpriteBit s x y n.val px py) → t.fb = s.fb ∧ t.V vf = 0)

/-! ### Timers and keypad (45_timers_input.md) -/

/-- R230, R231: SKP and SKNP. -/
def Obligations.KeySkips : Prop :=
  ∀ (x : Reg) (s : State),
    EncodedAs (.skp x) (0xE09E + x.val * 256) ∧ EncodedAs (.sknp x) (0xE0A1 + x.val * 256) ∧
    ((s.V x).toNat > 15 → FaultsWith .outOfBounds (.skp x) s ∧ FaultsWith .outOfBounds (.sknp x) s) ∧
    ∀ k : Fin 16, (s.V x).toNat = k.val →
      (∃ t, exec (.skp x) s = .next t ∧ OnlyChanges (fun p => p = .pc) s t ∧
        t.pc = if s.pressed k = true then s.pc + 2 else s.pc) ∧
      ∃ t, exec (.sknp x) s = .next t ∧ OnlyChanges (fun p => p = .pc) s t ∧
        t.pc = if s.pressed k = false then s.pc + 2 else s.pc

/-- R232, R234, R235: LD Vx, DT; LD DT, Vx; LD ST, Vx. -/
def Obligations.TimerMoves : Prop :=
  ∀ (x : Reg) (s : State),
    EncodedAs (.ldVxDT x) (0xF007 + x.val * 256) ∧ EncodedAs (.ldDTVx x) (0xF015 + x.val * 256) ∧
    EncodedAs (.ldSTVx x) (0xF018 + x.val * 256) ∧
    (∃ t, exec (.ldVxDT x) s = .next t ∧ t.V x = s.dt ∧ OnlyChanges (fun p => p = .v x) s t) ∧
    (∃ t, exec (.ldDTVx x) s = .next t ∧ t.dt = s.V x ∧ OnlyChanges (fun p => p = .dt) s t) ∧
    ∃ t, exec (.ldSTVx x) s = .next t ∧ t.st = s.V x ∧ OnlyChanges (fun p => p = .st) s t

/-- R233: LD Vx, K suspends the engine with nothing else changed; when a key goes from released to pressed while
RUN = Suspended(x), V[x] gets its index and RUN is Ready, with pc where it was. -/
def Obligations.WaitForKey : Prop :=
  ∀ (x : Reg) (s : State), EncodedAs (.ldVxK x) (0xF00A + x.val * 256) ∧
    (∃ t, exec (.ldVxK x) s = .next t ∧ t.run = .suspended x ∧ OnlyChanges (fun p => p = .run) s t) ∧
    ∀ (u : State) (k : Fin 16), u.run = .suspended x → u.pressed k = false →
      ((setKeyState k true u).V x).toNat = k.val ∧ (setKeyState k true u).run = .ready ∧
      (setKeyState k true u).pc = u.pc

/-! ### Timer unit, input latch and host interface (60_exceptions.md) -/

/-- R257, R259: a tick decrements both timers, floored at 0, in Ready and in Suspended alike, and changes nothing
else; in Halted it is not taken. -/
def Obligations.TickCountsBothTimersDown : Prop :=
  ∀ s : State, s.started = true →
    (s.run ≠ .halted → ∃ t, deliver .tick s = .next t ∧
      t.dt.toNat = s.dt.toNat - 1 ∧ t.st.toNat = s.st.toNat - 1 ∧
      OnlyChanges (fun p => p = .dt ∨ p = .st) s t) ∧
    (s.run = .halted → ∀ t, deliver .tick s ≠ .next t)

/-- R261, R263: set_key_state writes KEY[k]; a released-to-pressed edge while Suspended(x) also writes V[x] <- k and
RUN <- Ready; no other key event does more than write KEY[k]; an index above 15 is not taken. -/
def Obligations.KeyEventWritesTheLatchAndEndsAWait : Prop :=
  ∀ (s : State) (p : Bool), s.started = true → s.run ≠ .halted →
    (∀ k : Fin 16, ∃ t, deliver (.key k.val p) s = .next t ∧ t.pressed k = p ∧
      (∀ x, s.run = .suspended x → p = true → s.pressed k = false →
        (t.V x).toNat = k.val ∧ t.run = .ready ∧
        OnlyChanges (fun q => q = .key k ∨ q = .v x ∨ q = .run) s t) ∧
      ((∀ x, s.run ≠ .suspended x) ∨ p = false ∨ s.pressed k = true →
        OnlyChanges (fun q => q = .key k) s t)) ∧
    ∀ (k : Nat) (t : State), 16 ≤ k → deliver (.key k p) s ≠ .next t

/-- R264, R265, R261: when each event is taken: an engine step iff RUN = Ready (and a step before the load is taken
too, R293, log entry 5); a tick, a snapshot and a key event iff the load has completed and RUN ≠ Halted, the key
index being 0..15; a load iff the run has not begun, RUN ≠ Halted and the image fits. -/
def Obligations.EventsAreTakenWhereEnabled : Prop :=
  ∀ s : State,
    ((∃ t, deliver .step s = .next t) ↔ s.run = .ready) ∧
    ((∃ t, deliver .tick s = .next t) ↔ s.started = true ∧ s.run ≠ .halted) ∧
    ((∃ t, deliver .snapshot s = .next t) ↔ s.started = true ∧ s.run ≠ .halted) ∧
    (∀ k p, (∃ t, deliver (.key k p) s = .next t) ↔ k ≤ 15 ∧ s.started = true ∧ s.run ≠ .halted) ∧
    ∀ bytes o, (∃ t, deliver (.load bytes o) s = .next t) ↔
      s.started = false ∧ s.run ≠ .halted ∧ o + bytes.length ≤ 4096

/-- R264: the next event of a run is the first that `env` holds, whichever it is, and `env` loses it; while `env` is
empty it is the engine's step (the model's choice, log entry 4). -/
def Obligations.StepTakesTheNextEvent : Prop :=
  ∀ s : State, (s.env = [] → step s = engineStep s) ∧
    ∀ e rest, s.env = e :: rest → step s = deliver e { s with env := rest }

/-- R69: load copies the image to its origin, byte k to origin + k, and changes nothing else but that the run has
begun; pc does not follow the origin (R291). -/
def Obligations.LoadCopiesTheImage : Prop :=
  ∀ (s : State) (bytes : List Byte) (o : Nat), s.started = false → s.run ≠ .halted →
    (o + bytes.length > 4096 → ∀ t, deliver (.load bytes o) s ≠ .next t) ∧
    (o + bytes.length ≤ 4096 → ∃ t, deliver (.load bytes o) s = .next t ∧ t.started = true ∧
      OnlyChanges (fun p => p = .started ∨ ∃ k, k < bytes.length ∧ p = .mem (o + k)) s t ∧
      (s.mem.wf (resetByte s.cfg) → ∀ k, k < bytes.length → some (t.byte (o + k)) = bytes[k]?))

/-- R260, R262, R266: a snapshot changes nothing and returns the framebuffer; the sound output is on iff ST ≠ 0;
status is RUN and FAULT. -/
def Obligations.OutputsReadTheState : Prop :=
  ∀ s : State, (s.started = true → s.run ≠ .halted → deliver .snapshot s = .next s) ∧
    (∀ x y, s.snapshot.pixel x y = s.fb.pixel x y) ∧
    (s.soundOn = true ↔ s.st.toNat ≠ 0) ∧ s.status = (s.run, s.fault)

/-! ### The model's schedule, and the remaining writers -/

/-- While RUN = Suspended(x), a step that is the engine's gives no next state, whether the engine steps because `env`
is empty (the model's choice, log entry 4) or because `env` schedules it. That the engine has no step is R126. -/
def Obligations.SuspendedStepHasNoNextState : Prop :=
  ∀ (s t : State) (x : Reg), s.run = .suspended x →
    (s.env = [] → step s ≠ .next t) ∧ ∀ rest, s.env = .step :: rest → step s ≠ .next t

/-- R22, R36: the instructions that change the other parts: a register V0..VE only where it is named as the
destination, or among V0..Vx of LD Vx,[I]; pc, beside the advance of R123, only by the jumps, CALL, RET and the
skips, and by a fault, which undoes the advance (R128); RUN only by LD Vx,K and by a fault; FAULT only by a fault.
The counter `draws` moves only with RND: it is the model's own field (log entry 6). -/
def Obligations.RegistersPcRunAndFaultChangeOnlyWhereNamed : Prop :=
  ∀ (i : Instr) (s t : State), exec i s = .next t →
    (∀ x : Reg, x ≠ vf → t.V x ≠ s.V x →
      (∃ nn, i = .ldImm x nn ∨ i = .addImm x nn ∨ i = .rnd x nn) ∨
      (∃ y, i = .ldReg x y ∨ i = .orReg x y ∨ i = .andReg x y ∨ i = .xorReg x y) ∨
      (∃ y, i = .addReg x y ∨ i = .subReg x y ∨ i = .shr x y ∨ i = .subnReg x y ∨ i = .shl x y) ∨
      i = .ldVxDT x ∨ ∃ z, x ≤ z ∧ i = .ldVxMem z) ∧
    (t.pc ≠ s.pc →
      i = .ret ∨ (∃ nnn, i = .jp nnn ∨ i = .call nnn ∨ i = .jpV0 nnn) ∨
      (∃ x nn, i = .seImm x nn ∨ i = .sneImm x nn) ∨ (∃ x y n, i = .seReg x y n ∨ i = .sneReg x y n) ∨
      (∃ x, i = .skp x ∨ i = .sknp x) ∨ (execFault s i).isSome = true) ∧
    (t.run ≠ s.run → (∃ x, i = .ldVxK x) ∨ (execFault s i).isSome = true) ∧
    (t.fault ≠ s.fault → (execFault s i).isSome = true) ∧
    (t.draws ≠ s.draws → ∃ x nn, i = .rnd x nn)
end

