-- ==== Sys2Proof/Laws/Decode.lean ====
section
/-! SUPPORT. What the fields of a word and the words of the formats are, and what the bytes of a word are: the
facts the encoding proofs cite instead of unfolding. -/

namespace Sys2Proof

/-- The value of a word of format NNN. -/
theorem wordNNN_toNat {op : Nat} (h : op < 16) (nnn : Addr12) :
    (wordNNN op nnn).toNat = op * 4096 + nnn.toNat := by
  have := nnn.isLt
  simp only [wordNNN, BitVec.toNat_ofNat]
  omega

/-- The value of a word of format XNN. -/
theorem wordXNN_toNat {op : Nat} (h : op < 16) (x : Reg) (nn : Byte) :
    (wordXNN op x nn).toNat = op * 4096 + x.val * 256 + nn.toNat := by
  have := nn.isLt
  have := x.isLt
  simp only [wordXNN, BitVec.toNat_ofNat]
  omega

/-- The value of a word of format XY, XYK or XYN. -/
theorem wordXYN_toNat {op : Nat} (h : op < 16) (x y : Reg) (n : Nibble) :
    (wordXYN op x y n).toNat = op * 4096 + x.val * 256 + y.val * 16 + n.val := by
  have := x.isLt
  have := y.isLt
  have := n.isLt
  simp only [wordXYN, BitVec.toNat_ofNat]
  omega

section NNN

variable {op : Nat} (h : op < 16) (nnn : Addr12)
include h

theorem fieldOp_wordNNN : fieldOp (wordNNN op nnn) = op := by
  have := nnn.isLt
  simp only [fieldOp, bits, wordNNN_toNat h]
  omega

theorem fieldNNN_wordNNN : fieldNNN (wordNNN op nnn) = nnn := by
  have := nnn.isLt
  apply BitVec.eq_of_toNat_eq
  simp only [fieldNNN, bits, wordNNN_toNat h, BitVec.toNat_ofNat]
  omega

end NNN

section XNN

variable {op : Nat} (h : op < 16) (x : Reg) (nn : Byte)
include h

theorem fieldOp_wordXNN : fieldOp (wordXNN op x nn) = op := by
  have := nn.isLt
  have := x.isLt
  simp only [fieldOp, bits, wordXNN_toNat h]
  omega

theorem fieldX_wordXNN : fieldX (wordXNN op x nn) = x := by
  have := nn.isLt
  have := x.isLt
  apply Fin.ext
  simp only [fieldX, bits, wordXNN_toNat h, Fin.ofNat]
  omega

theorem bits_low_wordXNN : bits (wordXNN op x nn) 7 0 = nn.toNat := by
  have := nn.isLt
  have := x.isLt
  simp only [bits, wordXNN_toNat h]
  omega

theorem fieldNN_wordXNN : fieldNN (wordXNN op x nn) = nn := by
  simp only [fieldNN, bits_low_wordXNN h, BitVec.ofNat_toNat, BitVec.setWidth_eq]

end XNN

section XYN

variable {op : Nat} (h : op < 16) (x y : Reg) (n : Nibble)
include h

theorem fieldOp_wordXYN : fieldOp (wordXYN op x y n) = op := by
  have := x.isLt
  have := y.isLt
  have := n.isLt
  simp only [fieldOp, bits, wordXYN_toNat h]
  omega

theorem fieldX_wordXYN : fieldX (wordXYN op x y n) = x := by
  have := x.isLt
  have := y.isLt
  have := n.isLt
  apply Fin.ext
  simp only [fieldX, bits, wordXYN_toNat h, Fin.ofNat]
  omega

theorem fieldY_wordXYN : fieldY (wordXYN op x y n) = y := by
  have := x.isLt
  have := y.isLt
  have := n.isLt
  apply Fin.ext
  simp only [fieldY, bits, wordXYN_toNat h, Fin.ofNat]
  omega

theorem bits_low_wordXYN : bits (wordXYN op x y n) 3 0 = n.val := by
  have := x.isLt
  have := y.isLt
  have := n.isLt
  simp only [bits, wordXYN_toNat h]
  omega

theorem fieldN_wordXYN : fieldN (wordXYN op x y n) = n := by
  have := n.isLt
  apply Fin.ext
  simp only [fieldN, bits_low_wordXYN h, Fin.ofNat]
  omega

end XYN

/-- The big-endian word of two bytes (20_memory.md R64). -/
theorem wordOfBytes_toNat (hi lo : Byte) : (wordOfBytes hi lo).toNat = hi.toNat * 256 + lo.toNat := by
  have h1 := hi.isLt
  have h2 := lo.isLt
  have e : hi.toNat * 256 ||| lo.toNat = hi.toNat * 256 + lo.toNat := by
    have := (Nat.shiftLeft_add_eq_or_of_lt (i := 8) h2 hi.toNat).symm
    rwa [Nat.shiftLeft_eq] at this
  simp only [wordOfBytes, BitVec.toNat_or, BitVec.toNat_shiftLeft, BitVec.toNat_setWidth, Nat.shiftLeft_eq]
  rw [Nat.mod_eq_of_lt (by omega : hi.toNat < 2 ^ 16), Nat.mod_eq_of_lt (by omega : lo.toNat < 2 ^ 16),
    Nat.mod_eq_of_lt (by omega)]
  exact e

/-- A word is the word of its two bytes. -/
@[simp] theorem wordOfBytes_bytes (w : Word) : wordOfBytes (highByte w) (lowByte w) = w := by
  have := w.isLt
  apply BitVec.eq_of_toNat_eq
  simp only [wordOfBytes_toNat, highByte, lowByte, bits, BitVec.toNat_ofNat]
  omega

/-- Dispatch answers an instruction exactly when the decoder does and the machine has it (40_engine_cycle.md R124). -/
theorem dispatch_eq_ok {c : Config} {w : Word} {i : Instr} :
    dispatch c w = .ok i ↔ decode w = .ok i ∧ i.wf c = true := by
  unfold dispatch
  cases hd : decode w with
  | error e => simp
  | ok j =>
    by_cases hj : j.wf c = true
    · simp only [hj, ↓reduceIte, Except.ok.injEq]
      constructor
      · rintro rfl; exact ⟨rfl, hj⟩
      · exact fun h => h.1
    · simp only [hj, Except.ok.injEq]
      constructor
      · intro h; exact absurd h (by simp)
      · rintro ⟨rfl, h⟩; exact absurd h hj

/-- Where no switch restricts the map, dispatch is the decoder. -/
theorem dispatch_of_not_strict {c : Config} (h : c.strict5xy0 = false) (w : Word) :
    dispatch c w = decode w := by
  unfold dispatch
  cases hd : decode w with
  | error e => rfl
  | ok j =>
    have : j.wf c = true := by cases j <;> simp [Instr.wf, h]
    simp [this]

end Sys2Proof
end

