-- ==== Sys2Proof/Laws/Framebuffer.lean ====
section
/-! SUPPORT. The laws of the framebuffer: what one inverted pixel, one sprite row and one blit do, pixel by pixel
(44_display.md R211 to R213). -/

namespace Sys2Proof.Machine

/-- Coordinates wrap (10_state.md R34). -/
theorem Framebuffer.pixel_congr (fb : Framebuffer) {x x' y y' : Nat} (hx : x % 64 = x' % 64)
    (hy : y % 32 = y' % 32) : fb.pixel x y = fb.pixel x' y' := by
  simp only [Framebuffer.pixel, hx, hy]

/-- Two framebuffers with the same pixels are the same. -/
theorem Framebuffer.ext_pixel {f g : Framebuffer} (h : ∀ x y, f.pixel x y = g.pixel x y) : f = g := by
  refine Vector.ext fun y hy => Vector.ext fun x hx => ?_
  have := h x y
  simpa only [Framebuffer.pixel, Nat.mod_eq_of_lt hx, Nat.mod_eq_of_lt hy] using this

/-- Inverting one pixel changes that pixel alone. -/
theorem Framebuffer.pixel_flip (fb : Framebuffer) (x y x' y' : Nat) :
    (fb.flip x y).pixel x' y' =
      if x' % 64 = x % 64 ∧ y' % 32 = y % 32 then !fb.pixel x y else fb.pixel x' y' := by
  simp only [Framebuffer.flip, Framebuffer.pixel, Vector.getElem_set]
  by_cases hy : y' % 32 = y % 32
  · by_cases hx : x' % 64 = x % 64
    · simp only [hy, hx, Vector.getElem_set_self, and_self, if_true]
    · simp only [hy, if_true, Vector.getElem_set, if_neg (Ne.symm hx), and_true, if_neg hx]
  · simp only [if_neg (Ne.symm hy), hy, and_false, if_false]

/-- A cleared framebuffer has no pixel on (R210). -/
@[simp] theorem Framebuffer.pixel_clear (x y : Nat) : Framebuffer.clear.pixel x y = false := by
  simp [Framebuffer.clear, Framebuffer.pixel]

/-- Column `j` of the row `b`, for some `j` from `c` to `c + k - 1`, is a 1 bit that lands on column `px`. -/
def rowHits (b : Byte) (x0 c k px : Nat) : Prop :=
  ∃ j, c ≤ j ∧ j < c + k ∧ b.getLsbD (7 - j) = true ∧ px % 64 = (x0 + j) % 64

theorem rowHits_zero (b : Byte) (x0 c px : Nat) : ¬ rowHits b x0 c 0 px := by
  rintro ⟨j, h1, h2, -⟩; omega

theorem rowHits_succ (b : Byte) (x0 c k px : Nat) :
    rowHits b x0 c (k + 1) px ↔
      (b.getLsbD (7 - c) = true ∧ px % 64 = (x0 + c) % 64) ∨ rowHits b x0 (c + 1) k px := by
  constructor
  · rintro ⟨j, h1, h2, h3⟩
    rcases Nat.eq_or_lt_of_le h1 with rfl | h
    · exact .inl h3
    · exact .inr ⟨j, h, by omega, h3⟩
  · rintro (h | ⟨j, h1, h2, h3⟩)
    · exact ⟨c, Nat.le_refl c, by omega, h⟩
    · exact ⟨j, by omega, by omega, h3⟩

/-- Within one row of at most 64 columns the columns reach distinct pixels (R211, no self-overlap). -/
theorem rowHits_not_first (b : Byte) (x0 c k : Nat) (hk : k < 64) : ¬ rowHits b x0 (c + 1) k (x0 + c) := by
  rintro ⟨j, h1, h2, -, h4⟩; omega

open Classical in
/-- What the columns of one sprite row do to a pixel. -/
theorem blitRow_pixel (b : Byte) (x0 py : Nat) (k : Nat) (hk : k ≤ 64) (c : Nat) (z : Blit) (px y : Nat) :
    (blitRow b x0 py c k z).1.pixel px y =
      (z.1.pixel px y ^^ decide (y % 32 = py % 32 ∧ rowHits b x0 c k px)) := by
  induction k generalizing c z with
  | zero => simp [blitRow, rowHits_zero]
  | succ k ih =>
    rw [blitRow, ih (by omega)]
    simp only [rowHits_succ]
    by_cases hb : b.getLsbD (7 - c) = true
    · simp only [hb, if_true, true_and, Framebuffer.pixel_flip]
      by_cases hx : px % 64 = (x0 + c) % 64
      · by_cases hy : y % 32 = py % 32
        · have hn : ¬ rowHits b x0 (c + 1) k px := by
            have := rowHits_not_first b x0 c k (by omega)
            simpa only [rowHits, hx] using this
          simp [hx, hy, hn, z.1.pixel_congr hx hy]
        · simp [hy]
      · simp [hx]
    · simp [hb]

open Classical in
/-- Whether the columns of one sprite row turn a pixel off. -/
theorem blitRow_coll (b : Byte) (x0 py : Nat) (k : Nat) (hk : k ≤ 64) (c : Nat) (z : Blit) :
    (blitRow b x0 py c k z).2 = true ↔
      z.2 = true ∨ ∃ px, rowHits b x0 c k px ∧ z.1.pixel px py = true := by
  induction k generalizing c z with
  | zero => simp [blitRow, rowHits_zero]
  | succ k ih =>
    rw [blitRow, ih (by omega)]
    simp only [rowHits_succ]
    by_cases hb : b.getLsbD (7 - c) = true
    · simp only [hb, if_true, true_and, Bool.or_eq_true, Framebuffer.pixel_flip, and_true]
      have hn := rowHits_not_first b x0 c k (by omega)
      constructor
      · rintro ((h | h) | ⟨px, h1, h2⟩)
        · exact .inl h
        · exact .inr ⟨x0 + c, .inl rfl, h⟩
        · by_cases hx : px % 64 = (x0 + c) % 64
          · exact absurd (by simpa only [rowHits, hx] using h1) hn
          · exact .inr ⟨px, .inr h1, by simpa [hx] using h2⟩
      · rintro (h | ⟨px, h1 | h1, h2⟩)
        · exact .inl (.inl h)
        · exact .inl (.inr ((z.1.pixel_congr h1 rfl).symm.trans h2))
        · by_cases hx : px % 64 = (x0 + c) % 64
          · exact absurd (by simpa only [rowHits, hx] using h1) hn
          · exact .inr ⟨px, h1, by simpa [hx] using h2⟩
    · simp [hb]

/-- Row `r` of the sprite, for some `r`, has a 1 bit that lands on the pixel in column `px`, row `py`, the
first row being drawn at row `y0`. -/
def spriteHits (rows : List Byte) (x0 y0 px py : Nat) : Prop :=
  ∃ r, ∃ h : r < rows.length, py % 32 = (y0 + r) % 32 ∧ rowHits rows[r] x0 0 8 px

theorem spriteHits_nil (x0 y0 px py : Nat) : ¬ spriteHits [] x0 y0 px py := by
  rintro ⟨r, h, -⟩; exact absurd h (Nat.not_lt_zero r)

theorem spriteHits_cons (b : Byte) (rows : List Byte) (x0 y0 px py : Nat) :
    spriteHits (b :: rows) x0 y0 px py ↔
      (py % 32 = y0 % 32 ∧ rowHits b x0 0 8 px) ∨ spriteHits rows x0 (y0 + 1) px py := by
  constructor
  · rintro ⟨r, h, h1, h2⟩
    cases r with
    | zero => exact .inl ⟨h1, h2⟩
    | succ r => exact .inr ⟨r, by simpa using h, by rw [h1]; congr 1; omega, h2⟩
  · rintro (⟨h1, h2⟩ | ⟨r, h, h1, h2⟩)
    · exact ⟨0, by simp, h1, h2⟩
    · exact ⟨r + 1, by simpa using h, by rw [h1]; congr 1; omega, h2⟩

theorem spriteHits_not_first (rows : List Byte) (hl : rows.length < 32) (x0 y0 px py : Nat)
    (h : py % 32 = y0 % 32) : ¬ spriteHits rows x0 (y0 + 1) px py := by
  rintro ⟨r, h1, h2, -⟩; omega

open Classical in
theorem blitRows_pixel (rows : List Byte) (hl : rows.length ≤ 32) (x0 y0 : Nat) (z : Blit) (px py : Nat) :
    (blitRows x0 y0 rows z).1.pixel px py = (z.1.pixel px py ^^ decide (spriteHits rows x0 y0 px py)) := by
  induction rows generalizing y0 z with
  | nil => simp [blitRows, spriteHits_nil]
  | cons b rows ih =>
    have hl' : rows.length < 32 := by simpa using hl
    rw [blitRows, ih (by omega), blitRow_pixel _ _ _ _ (by omega)]
    simp only [spriteHits_cons]
    by_cases h : py % 32 = y0 % 32
    · simp [h, spriteHits_not_first rows hl' x0 y0 px py h]
    · simp [h]

open Classical in
theorem blitRows_coll (rows : List Byte) (hl : rows.length ≤ 32) (x0 y0 : Nat) (z : Blit) :
    (blitRows x0 y0 rows z).2 = true ↔
      z.2 = true ∨ ∃ px py, spriteHits rows x0 y0 px py ∧ z.1.pixel px py = true := by
  induction rows generalizing y0 z with
  | nil => simp [blitRows, spriteHits_nil]
  | cons b rows ih =>
    have hl' : rows.length < 32 := by simpa using hl
    rw [blitRows, ih (by omega), blitRow_coll _ _ _ _ (by omega)]
    simp only [spriteHits_cons]
    constructor
    · rintro ((h | ⟨px, h1, h2⟩) | ⟨px, py, h1, h2⟩)
      · exact .inl h
      · exact .inr ⟨px, y0, .inl ⟨rfl, h1⟩, h2⟩
      · refine .inr ⟨px, py, .inr h1, ?_⟩
        rw [blitRow_pixel _ _ _ _ (by omega)] at h2
        have : ¬ py % 32 = y0 % 32 := fun h => spriteHits_not_first rows hl' x0 y0 px py h h1
        simpa [this] using h2
    · rintro (h | ⟨px, py, ⟨h1, h2⟩ | h1, h3⟩)
      · exact .inl (.inl h)
      · exact .inl (.inr ⟨px, h2, (z.1.pixel_congr rfl h1).symm.trans h3⟩)
      · refine .inr ⟨px, py, h1, ?_⟩
        rw [blitRow_pixel _ _ _ _ (by omega)]
        have : ¬ py % 32 = y0 % 32 := fun h => spriteHits_not_first rows hl' x0 y0 px py h h1
        simpa [this] using h3

open Classical in
/-- What a blit does to a pixel: XOR with the sprite (R211). -/
theorem Framebuffer.blit_pixel (fb : Framebuffer) (x0 y0 : Nat) (rows : List Byte) (hl : rows.length ≤ 32)
    (px py : Nat) :
    (fb.blit x0 y0 rows).1.pixel px py = (fb.pixel px py ^^ decide (spriteHits rows x0 y0 px py)) :=
  blitRows_pixel rows hl x0 y0 _ px py

/-- A blit reports a collision exactly when a 1 bit of the sprite lands on a pixel that was on (R211). -/
theorem Framebuffer.blit_coll (fb : Framebuffer) (x0 y0 : Nat) (rows : List Byte) (hl : rows.length ≤ 32) :
    (fb.blit x0 y0 rows).2 = true ↔ ∃ px py, spriteHits rows x0 y0 px py ∧ fb.pixel px py = true := by
  rw [Framebuffer.blit, blitRows_coll rows hl]
  simp

end Sys2Proof.Machine
end

