-- ==== Sys2Proof/Laws/State.lean ====
section
/-! SUPPORT. One lemma per field per named update of State, so that no later proof unfolds an update. -/

namespace Sys2Proof.Machine

variable (s : State)

/-- Two states with the same fields are the same state. -/
@[ext] theorem State.ext_fields {s t : State} (v : s.v = t.v) (i : s.i = t.i) (pc : s.pc = t.pc)
    (sp : s.sp = t.sp) (stack : s.stack = t.stack) (dt : s.dt = t.dt) (st : s.st = t.st)
    (run : s.run = t.run) (fault : s.fault = t.fault) (mem : s.mem = t.mem) (fb : s.fb = t.fb)
    (key : s.key = t.key) (started : s.started = t.started) (cfg : s.cfg = t.cfg)
    (draws : s.draws = t.draws) (env : s.env = t.env) : s = t := by
  cases s; cases t; simp_all

/-! ### V and setV -/

@[simp] theorem State.setV_V (x : Reg) (b : Byte) (y : Reg) :
    (s.setV x b).V y = if y = x then b else s.V y := by
  simp only [State.V, State.setV, Vector.getElem_set, Fin.ext_iff, eq_comm]

/-- Reading a register depends on the register file alone. -/
theorem State.V_congr {s t : State} (h : s.v = t.v) (x : Reg) : s.V x = t.V x := by
  simp only [State.V, h]

/-- Two register files that read alike are equal. -/
theorem State.v_ext {s t : State} (h : ∀ x, s.V x = t.V x) : s.v = t.v :=
  Vector.ext fun k hk => h ⟨k, hk⟩

/-! ### State.setV -/

@[simp] theorem State.setV_i (x : Reg) (b : Byte) : (s.setV x b).i = s.i := rfl

@[simp] theorem State.setV_pc (x : Reg) (b : Byte) : (s.setV x b).pc = s.pc := rfl

@[simp] theorem State.setV_sp (x : Reg) (b : Byte) : (s.setV x b).sp = s.sp := rfl

@[simp] theorem State.setV_stack (x : Reg) (b : Byte) : (s.setV x b).stack = s.stack := rfl

@[simp] theorem State.setV_dt (x : Reg) (b : Byte) : (s.setV x b).dt = s.dt := rfl

@[simp] theorem State.setV_st (x : Reg) (b : Byte) : (s.setV x b).st = s.st := rfl

@[simp] theorem State.setV_run (x : Reg) (b : Byte) : (s.setV x b).run = s.run := rfl

@[simp] theorem State.setV_fault (x : Reg) (b : Byte) : (s.setV x b).fault = s.fault := rfl

@[simp] theorem State.setV_mem (x : Reg) (b : Byte) : (s.setV x b).mem = s.mem := rfl

@[simp] theorem State.setV_fb (x : Reg) (b : Byte) : (s.setV x b).fb = s.fb := rfl

@[simp] theorem State.setV_key (x : Reg) (b : Byte) : (s.setV x b).key = s.key := rfl

@[simp] theorem State.setV_started (x : Reg) (b : Byte) : (s.setV x b).started = s.started := rfl

@[simp] theorem State.setV_cfg (x : Reg) (b : Byte) : (s.setV x b).cfg = s.cfg := rfl

@[simp] theorem State.setV_draws (x : Reg) (b : Byte) : (s.setV x b).draws = s.draws := rfl

@[simp] theorem State.setV_env (x : Reg) (b : Byte) : (s.setV x b).env = s.env := rfl

/-! ### State.setVF -/

@[simp] theorem State.setVF_i (c : Bool) : (s.setVF c).i = s.i := rfl

@[simp] theorem State.setVF_pc (c : Bool) : (s.setVF c).pc = s.pc := rfl

@[simp] theorem State.setVF_sp (c : Bool) : (s.setVF c).sp = s.sp := rfl

@[simp] theorem State.setVF_stack (c : Bool) : (s.setVF c).stack = s.stack := rfl

@[simp] theorem State.setVF_dt (c : Bool) : (s.setVF c).dt = s.dt := rfl

@[simp] theorem State.setVF_st (c : Bool) : (s.setVF c).st = s.st := rfl

@[simp] theorem State.setVF_run (c : Bool) : (s.setVF c).run = s.run := rfl

@[simp] theorem State.setVF_fault (c : Bool) : (s.setVF c).fault = s.fault := rfl

@[simp] theorem State.setVF_mem (c : Bool) : (s.setVF c).mem = s.mem := rfl

@[simp] theorem State.setVF_fb (c : Bool) : (s.setVF c).fb = s.fb := rfl

@[simp] theorem State.setVF_key (c : Bool) : (s.setVF c).key = s.key := rfl

@[simp] theorem State.setVF_started (c : Bool) : (s.setVF c).started = s.started := rfl

@[simp] theorem State.setVF_cfg (c : Bool) : (s.setVF c).cfg = s.cfg := rfl

@[simp] theorem State.setVF_draws (c : Bool) : (s.setVF c).draws = s.draws := rfl

@[simp] theorem State.setVF_env (c : Bool) : (s.setVF c).env = s.env := rfl

@[simp] theorem State.setVF_V (c : Bool) (y : Reg) :
    (s.setVF c).V y = if y = vf then bool01 c else s.V y := State.setV_V s vf _ y

/-! ### State.setVWithFlag -/

@[simp] theorem State.setVWithFlag_i (x : Reg) (r : Byte) (c : Bool) : (s.setVWithFlag x r c).i = s.i := by
  unfold State.setVWithFlag; split <;> rfl

@[simp] theorem State.setVWithFlag_pc (x : Reg) (r : Byte) (c : Bool) : (s.setVWithFlag x r c).pc = s.pc := by
  unfold State.setVWithFlag; split <;> rfl

@[simp] theorem State.setVWithFlag_sp (x : Reg) (r : Byte) (c : Bool) : (s.setVWithFlag x r c).sp = s.sp := by
  unfold State.setVWithFlag; split <;> rfl

@[simp] theorem State.setVWithFlag_stack (x : Reg) (r : Byte) (c : Bool) : (s.setVWithFlag x r c).stack = s.stack := by
  unfold State.setVWithFlag; split <;> rfl

@[simp] theorem State.setVWithFlag_dt (x : Reg) (r : Byte) (c : Bool) : (s.setVWithFlag x r c).dt = s.dt := by
  unfold State.setVWithFlag; split <;> rfl

@[simp] theorem State.setVWithFlag_st (x : Reg) (r : Byte) (c : Bool) : (s.setVWithFlag x r c).st = s.st := by
  unfold State.setVWithFlag; split <;> rfl

@[simp] theorem State.setVWithFlag_run (x : Reg) (r : Byte) (c : Bool) : (s.setVWithFlag x r c).run = s.run := by
  unfold State.setVWithFlag; split <;> rfl

@[simp] theorem State.setVWithFlag_fault (x : Reg) (r : Byte) (c : Bool) : (s.setVWithFlag x r c).fault = s.fault := by
  unfold State.setVWithFlag; split <;> rfl

@[simp] theorem State.setVWithFlag_mem (x : Reg) (r : Byte) (c : Bool) : (s.setVWithFlag x r c).mem = s.mem := by
  unfold State.setVWithFlag; split <;> rfl

@[simp] theorem State.setVWithFlag_fb (x : Reg) (r : Byte) (c : Bool) : (s.setVWithFlag x r c).fb = s.fb := by
  unfold State.setVWithFlag; split <;> rfl

@[simp] theorem State.setVWithFlag_key (x : Reg) (r : Byte) (c : Bool) : (s.setVWithFlag x r c).key = s.key := by
  unfold State.setVWithFlag; split <;> rfl

@[simp] theorem State.setVWithFlag_started (x : Reg) (r : Byte) (c : Bool) : (s.setVWithFlag x r c).started = s.started := by
  unfold State.setVWithFlag; split <;> rfl

@[simp] theorem State.setVWithFlag_cfg (x : Reg) (r : Byte) (c : Bool) : (s.setVWithFlag x r c).cfg = s.cfg := by
  unfold State.setVWithFlag; split <;> rfl

@[simp] theorem State.setVWithFlag_draws (x : Reg) (r : Byte) (c : Bool) : (s.setVWithFlag x r c).draws = s.draws := by
  unfold State.setVWithFlag; split <;> rfl

@[simp] theorem State.setVWithFlag_env (x : Reg) (r : Byte) (c : Bool) : (s.setVWithFlag x r c).env = s.env := by
  unfold State.setVWithFlag; split <;> rfl

/-- The registers after a result and its flag are written (42_alu.md R166, 00_scope.md R7). -/
theorem State.setVWithFlag_V (x : Reg) (r : Byte) (c : Bool) (y : Reg) :
    (s.setVWithFlag x r c).V y =
      if s.cfg.vfFlagLast = true then (if y = vf then bool01 c else if y = x then r else s.V y)
      else (if y = x then r else if y = vf then bool01 c else s.V y) := by
  unfold State.setVWithFlag
  split <;> simp

/-! ### advance -/

@[simp] theorem advance_v : (advance s).v = s.v := rfl

@[simp] theorem advance_i : (advance s).i = s.i := rfl

@[simp] theorem advance_sp : (advance s).sp = s.sp := rfl

@[simp] theorem advance_stack : (advance s).stack = s.stack := rfl

@[simp] theorem advance_dt : (advance s).dt = s.dt := rfl

@[simp] theorem advance_st : (advance s).st = s.st := rfl

@[simp] theorem advance_run : (advance s).run = s.run := rfl

@[simp] theorem advance_fault : (advance s).fault = s.fault := rfl

@[simp] theorem advance_mem : (advance s).mem = s.mem := rfl

@[simp] theorem advance_fb : (advance s).fb = s.fb := rfl

@[simp] theorem advance_key : (advance s).key = s.key := rfl

@[simp] theorem advance_started : (advance s).started = s.started := rfl

@[simp] theorem advance_cfg : (advance s).cfg = s.cfg := rfl

@[simp] theorem advance_draws : (advance s).draws = s.draws := rfl

@[simp] theorem advance_env : (advance s).env = s.env := rfl

@[simp] theorem advance_pc : (advance s).pc = s.pc + 2 := rfl

/-! ### tick -/

@[simp] theorem tick_v : (tick s).v = s.v := rfl

@[simp] theorem tick_i : (tick s).i = s.i := rfl

@[simp] theorem tick_pc : (tick s).pc = s.pc := rfl

@[simp] theorem tick_sp : (tick s).sp = s.sp := rfl

@[simp] theorem tick_stack : (tick s).stack = s.stack := rfl

@[simp] theorem tick_run : (tick s).run = s.run := rfl

@[simp] theorem tick_fault : (tick s).fault = s.fault := rfl

@[simp] theorem tick_mem : (tick s).mem = s.mem := rfl

@[simp] theorem tick_fb : (tick s).fb = s.fb := rfl

@[simp] theorem tick_key : (tick s).key = s.key := rfl

@[simp] theorem tick_started : (tick s).started = s.started := rfl

@[simp] theorem tick_cfg : (tick s).cfg = s.cfg := rfl

@[simp] theorem tick_draws : (tick s).draws = s.draws := rfl

@[simp] theorem tick_env : (tick s).env = s.env := rfl

@[simp] theorem tick_dt : (tick s).dt = countDown s.dt := rfl

@[simp] theorem tick_st : (tick s).st = countDown s.st := rfl

/-! ### draw -/

@[simp] theorem draw_v : ((draw s).2).v = s.v := rfl

@[simp] theorem draw_i : ((draw s).2).i = s.i := rfl

@[simp] theorem draw_pc : ((draw s).2).pc = s.pc := rfl

@[simp] theorem draw_sp : ((draw s).2).sp = s.sp := rfl

@[simp] theorem draw_stack : ((draw s).2).stack = s.stack := rfl

@[simp] theorem draw_dt : ((draw s).2).dt = s.dt := rfl

@[simp] theorem draw_st : ((draw s).2).st = s.st := rfl

@[simp] theorem draw_run : ((draw s).2).run = s.run := rfl

@[simp] theorem draw_fault : ((draw s).2).fault = s.fault := rfl

@[simp] theorem draw_mem : ((draw s).2).mem = s.mem := rfl

@[simp] theorem draw_fb : ((draw s).2).fb = s.fb := rfl

@[simp] theorem draw_key : ((draw s).2).key = s.key := rfl

@[simp] theorem draw_started : ((draw s).2).started = s.started := rfl

@[simp] theorem draw_cfg : ((draw s).2).cfg = s.cfg := rfl

@[simp] theorem draw_env : ((draw s).2).env = s.env := rfl

@[simp] theorem draw_draws : (draw s).2.draws = s.draws + 1 := rfl

/-! ### setKeyState -/

@[simp] theorem setKeyState_i (k : Fin 16) (p : Bool) : (setKeyState k p s).i = s.i := by
  unfold setKeyState; split <;> (try split) <;> rfl

@[simp] theorem setKeyState_pc (k : Fin 16) (p : Bool) : (setKeyState k p s).pc = s.pc := by
  unfold setKeyState; split <;> (try split) <;> rfl

@[simp] theorem setKeyState_sp (k : Fin 16) (p : Bool) : (setKeyState k p s).sp = s.sp := by
  unfold setKeyState; split <;> (try split) <;> rfl

@[simp] theorem setKeyState_stack (k : Fin 16) (p : Bool) : (setKeyState k p s).stack = s.stack := by
  unfold setKeyState; split <;> (try split) <;> rfl

@[simp] theorem setKeyState_dt (k : Fin 16) (p : Bool) : (setKeyState k p s).dt = s.dt := by
  unfold setKeyState; split <;> (try split) <;> rfl

@[simp] theorem setKeyState_st (k : Fin 16) (p : Bool) : (setKeyState k p s).st = s.st := by
  unfold setKeyState; split <;> (try split) <;> rfl

@[simp] theorem setKeyState_fault (k : Fin 16) (p : Bool) : (setKeyState k p s).fault = s.fault := by
  unfold setKeyState; split <;> (try split) <;> rfl

@[simp] theorem setKeyState_mem (k : Fin 16) (p : Bool) : (setKeyState k p s).mem = s.mem := by
  unfold setKeyState; split <;> (try split) <;> rfl

@[simp] theorem setKeyState_fb (k : Fin 16) (p : Bool) : (setKeyState k p s).fb = s.fb := by
  unfold setKeyState; split <;> (try split) <;> rfl

@[simp] theorem setKeyState_started (k : Fin 16) (p : Bool) : (setKeyState k p s).started = s.started := by
  unfold setKeyState; split <;> (try split) <;> rfl

@[simp] theorem setKeyState_cfg (k : Fin 16) (p : Bool) : (setKeyState k p s).cfg = s.cfg := by
  unfold setKeyState; split <;> (try split) <;> rfl

@[simp] theorem setKeyState_draws (k : Fin 16) (p : Bool) : (setKeyState k p s).draws = s.draws := by
  unfold setKeyState; split <;> (try split) <;> rfl

@[simp] theorem setKeyState_env (k : Fin 16) (p : Bool) : (setKeyState k p s).env = s.env := by
  unfold setKeyState; split <;> (try split) <;> rfl

@[simp] theorem setKeyState_pressed (k : Fin 16) (p : Bool) (j : Fin 16) :
    (setKeyState k p s).pressed j = if j = k then p else s.pressed j := by
  have h : (setKeyState k p s).key = s.key.set k.val p := by
    unfold setKeyState; split <;> (try split) <;> rfl
  simp only [State.pressed, h, Vector.getElem_set, Fin.ext_iff, eq_comm]

end Sys2Proof.Machine
end

