-- ==== Sys2Proof/Laws/Memory.lean ====
section
/-! SUPPORT. The laws of memory: read after write, the canonical form, and what each accessor answers. -/

namespace Sys2Proof.Machine

variable {base : Nat → Byte}

/-! ### The list of cells -/

/-- A write leaves every other address alone. -/
theorem Memory.read_write_other (m : Memory) {a a' : Nat} (u : Byte) (h : a' ≠ a) :
    (Memory.write base m a u).read base a' = m.read base a' := by
  induction m with
  | nil => unfold Memory.write; split <;> simp [Memory.read, h]
  | cons c m ih =>
    obtain ⟨b, w⟩ := c
    unfold Memory.write
    split
    · split <;> simp [Memory.read, h]
    · split
      · subst b; split <;> simp [Memory.read, h]
      · simp [Memory.read, ih]

/-- An address below every cell reads as unlisted. -/
theorem Memory.read_of_lt (m : Memory) {a : Nat} (h : ∀ c ∈ m, a < c.1) : m.read base a = base a := by
  induction m with
  | nil => rfl
  | cons c m ih =>
    have hc := h c List.mem_cons_self
    have := ih fun d hd => h d (List.mem_cons_of_mem c hd)
    obtain ⟨b, w⟩ := c
    simp only [Memory.read, if_neg (Nat.ne_of_lt hc), this]

/-- A read after a write to the same address gives the byte written (20_memory.md R67). -/
theorem Memory.read_write_same {m : Memory} (hm : m.wf base) (a : Nat) (u : Byte) :
    (Memory.write base m a u).read base a = u := by
  induction m with
  | nil => unfold Memory.write; split <;> simp_all [Memory.read]
  | cons c m ih =>
    obtain ⟨b, w⟩ := c
    have hp := List.pairwise_cons.1 hm.1
    have hm' : Memory.wf base m := ⟨hp.2, fun d hd => hm.2 d (List.mem_cons_of_mem _ hd)⟩
    have below : ∀ a, a < b → Memory.read base m a = base a := fun a ha =>
      Memory.read_of_lt m fun d hd => Nat.lt_trans ha (hp.1 d hd)
    unfold Memory.write
    split
    · rename_i hlt
      split
      · rename_i hu
        simp only [Memory.read, if_neg (Nat.ne_of_lt hlt), below a hlt, hu]
      · simp [Memory.read]
    · split
      · subst b
        split
        · rename_i hu
          rw [hu]
          exact Memory.read_of_lt m fun d hd => hp.1 d hd
        · simp [Memory.read]
      · rename_i h1 h2
        simp only [Memory.read, if_neg h2, ih hm']

/-- Every address a write lists was listed before or is the one written. -/
theorem Memory.mem_write {m : Memory} {a : Nat} {u : Byte} {c : Host.Cell}
    (h : c ∈ Memory.write base m a u) : c ∈ m ∨ (c = (a, u) ∧ u ≠ base a) := by
  induction m with
  | nil =>
    unfold Memory.write at h
    split at h
    · exact .inl h
    · exact .inr ⟨List.mem_singleton.1 h, ‹_›⟩
  | cons d m ih =>
    obtain ⟨b, w⟩ := d
    unfold Memory.write at h
    split at h
    · split at h
      · exact .inl h
      · rcases List.mem_cons.1 h with h | h
        · exact .inr ⟨h, ‹_›⟩
        · exact .inl h
    · split at h
      · split at h
        · exact .inl (List.mem_cons_of_mem _ h)
        · rcases List.mem_cons.1 h with h | h
          · exact .inr ⟨h, ‹_›⟩
          · exact .inl (List.mem_cons_of_mem _ h)
      · rcases List.mem_cons.1 h with h | h
        · exact .inl (h ▸ List.mem_cons_self)
        · exact (ih h).imp_left (List.mem_cons_of_mem _)

/-- A write keeps the canonical form. -/
theorem Memory.write_wf {m : Memory} (hm : m.wf base) {a : Nat} (ha : a < memSize) (u : Byte) :
    Memory.wf base (Memory.write base m a u) := by
  refine ⟨?_, fun c hc => ?_⟩
  · have hp := hm.1
    clear hm
    induction m with
    | nil => unfold Memory.write; split <;> simp
    | cons d m ih =>
      obtain ⟨b, w⟩ := d
      have hd := List.pairwise_cons.1 hp
      unfold Memory.write
      split
      · rename_i hlt
        split
        · exact hp
        · refine List.pairwise_cons.2 ⟨fun c hc => ?_, hp⟩
          rcases List.mem_cons.1 hc with h | h
          · rw [h]; exact hlt
          · exact Nat.lt_trans hlt (hd.1 c h)
      · split
        · subst b
          split
          · exact hd.2
          · exact List.pairwise_cons.2 ⟨hd.1, hd.2⟩
        · rename_i h1 h2
          refine List.pairwise_cons.2 ⟨fun c hc => ?_, ih hd.2⟩
          rcases Memory.mem_write hc with h | ⟨h, -⟩
          · exact hd.1 c h
          · rw [h]; exact Nat.lt_of_le_of_ne (Nat.le_of_not_lt h1) (Ne.symm h2)
  · rcases Memory.mem_write hc with h | ⟨rfl, h⟩
    · exact hm.2 c h
    · exact ⟨ha, h⟩

/-- The empty list of cells is canonical. -/
theorem Memory.nil_wf : Memory.wf base [] := by simp [Memory.wf]

/-! ### The accessors -/

variable {s t : State} {a : Nat}

/-- Memory contents depend on the cells and the parameters alone. -/
theorem State.byte_congr (hm : s.mem = t.mem) (hc : s.cfg = t.cfg) (a : Nat) : s.byte a = t.byte a := by
  simp only [State.byte, hm, hc]

/-- `read8` answers exactly in bounds (R62, R65). -/
theorem State.read8_eq (s : State) (a : Nat) :
    s.read8 a = if a < memSize then some (s.byte a) else none := rfl

/-- All that `write8` does where it answers (R62, R67). -/
theorem State.write8_spec {b : Byte} (h : s.write8 a b = some t) :
    a < memSize ∧ t = { s with mem := t.mem } ∧ (∀ a', a' ≠ a → t.byte a' = s.byte a') ∧
    (s.mem.wf (resetByte s.cfg) → t.byte a = b ∧ t.mem.wf (resetByte t.cfg)) := by
  unfold State.write8 at h
  split at h
  · rename_i ha
    obtain rfl := Option.some.inj h
    exact ⟨ha, rfl, fun a' ha' => Memory.read_write_other _ _ ha',
      fun hm => ⟨Memory.read_write_same hm _ _, Memory.write_wf hm ha _⟩⟩
  · exact absurd h (by simp)

/-- `read16` in bounds is the big-endian word (R64). -/
theorem State.read16_eq (s : State) (a : Nat) :
    s.read16 a = if a + 1 < memSize then some (wordOfBytes (s.byte a) (s.byte (a + 1))) else none := by
  unfold State.read16 State.read8
  by_cases h : a + 1 < memSize
  · have h' : a < memSize := Nat.lt_of_succ_lt h
    simp only [h, h', if_true]
  · simp only [h, if_false]
    split <;> simp_all

/-- `readBytes` answers exactly when it reads nothing or every address is in bounds (R63, R65). -/
theorem State.readBytes_eq (s : State) (n a : Nat) :
    s.readBytes a n =
      if n = 0 ∨ a + n ≤ memSize then some ((List.range n).map fun k => s.byte (a + k)) else none := by
  induction n generalizing a with
  | zero => simp [State.readBytes]
  | succ n ih =>
    simp only [State.readBytes, State.read8, ih]
    by_cases h : a + (n + 1) ≤ memSize
    · have h1 : a < memSize := by omega
      have h2 : a + 1 + n ≤ memSize := by omega
      simp only [h, h1, h2, or_true, if_true, List.range_succ_eq_map, List.map_cons, List.map_map,
        Nat.add_zero, Option.some.injEq, List.cons.injEq, true_and]
      refine List.map_congr_left fun k _ => ?_
      simp only [Function.comp_apply]
      congr 1
      omega
    · have h2 : ¬ a + 1 + n ≤ memSize := by omega
      by_cases hn : n = 0
      · subst hn
        have h1 : ¬ a < memSize := by omega
        simp [h1, h]
      · simp [h, h2, hn]

/-- All that `writeBytes` does where it answers (R67, R68). -/
theorem State.writeBytes_spec (bs : List Byte) {s t : State} {a : Nat} (h : s.writeBytes a bs = some t) :
    t = { s with mem := t.mem } ∧ (∀ a', (∀ k, k < bs.length → a' ≠ a + k) → t.byte a' = s.byte a') ∧
    (s.mem.wf (resetByte s.cfg) →
      (∀ k (hk : k < bs.length), t.byte (a + k) = bs[k]) ∧ t.mem.wf (resetByte t.cfg)) := by
  induction bs generalizing s a with
  | nil =>
    obtain rfl := Option.some.inj h
    exact ⟨rfl, fun _ _ => rfl, fun hm => ⟨fun k hk => absurd hk (Nat.not_lt_zero k), hm⟩⟩
  | cons b bs ih =>
    simp only [State.writeBytes] at h
    split at h
    · rename_i r hr
      obtain ⟨-, hr1, hr2, hr3⟩ := State.write8_spec hr
      obtain ⟨h1, h2, h3⟩ := ih h
      refine ⟨?_, fun a' ha' => ?_, fun hm => ?_⟩
      · rw [h1, hr1]
      · rw [h2 a' fun k hk => by have := ha' (k + 1) (by simpa using hk); omega]
        exact hr2 a' (by have := ha' 0 (by simp); omega)
      · have hrm := (hr3 hm).2
        obtain ⟨h3a, h3b⟩ := h3 hrm
        refine ⟨fun k hk => ?_, h3b⟩
        cases k with
        | zero =>
          rw [Nat.add_zero, h2 a fun k _ => by omega, (hr3 hm).1]
          rfl
        | succ k =>
          have := h3a k (by simpa using hk)
          rw [show a + (k + 1) = a + 1 + k by omega, this]
          rfl
    · exact absurd h (by simp)

/-- `writeBytes` answers exactly when it writes nothing or every address is in bounds (R65, R68). -/
theorem State.writeBytes_isSome (bs : List Byte) (s : State) (a : Nat) :
    (s.writeBytes a bs).isSome = true ↔ bs.length = 0 ∨ a + bs.length ≤ memSize := by
  induction bs generalizing s a with
  | nil => simp [State.writeBytes]
  | cons b bs ih =>
    simp only [State.writeBytes, State.write8]
    by_cases h : a < memSize
    · simp only [h, if_true, ih, List.length_cons]
      omega
    · simp only [h, if_false, List.length_cons]
      simp
      omega

/-- `load` answers exactly when the image fits (R69). -/
theorem State.load_isSome (s : State) (bytes : List Byte) (o : Nat) :
    (s.load bytes o).isSome = true ↔ o + bytes.length ≤ memSize := by
  unfold State.load
  split
  · rw [State.writeBytes_isSome]; omega
  · simp; omega

/-- All that `load` does where it answers (R69). -/
theorem State.load_spec {bytes : List Byte} {o : Nat} (h : s.load bytes o = some t) :
    t = { s with mem := t.mem } ∧
    (∀ a', (∀ k, k < bytes.length → a' ≠ o + k) → t.byte a' = s.byte a') ∧
    (s.mem.wf (resetByte s.cfg) →
      (∀ k (hk : k < bytes.length), t.byte (o + k) = bytes[k]) ∧ t.mem.wf (resetByte t.cfg)) := by
  unfold State.load at h
  split at h
  · exact State.writeBytes_spec bytes h
  · exact absurd h (by simp)

/-- The fetch answers exactly when pc and pc + 1 are in bounds (40_engine_cycle.md R121). -/
theorem fetch_eq (s : State) :
    fetch s = if s.pc.toNat ≤ 0xFFE then some (wordOfBytes (s.byte s.pc.toNat) (s.byte (s.pc.toNat + 1)))
      else none := by
  unfold fetch
  rw [State.read16_eq]
  exact if_congr (by simp only [memSize]; omega) rfl rfl

end Sys2Proof.Machine
end

