-- ==== Sys2Proof/Laws/Ops.lean ====
section
/-! SUPPORT. One lemma for each shared operation that says all it can do: the call stack, fault entry, the operand
forms, the flags, the loaded registers, and the delivery of an event. -/

namespace Sys2Proof.Machine

variable {s t : State}

/-! ### The call stack (10_state.md R26 to R28) -/

/-- All that a push does where it answers. -/
theorem State.push_spec {r : Word} (h : s.push r = some t) :
    s.sp.val < 16 ∧ t = { s with stack := t.stack, sp := t.sp } ∧ t.sp.val = s.sp.val + 1 ∧
    ∀ d (hd : d < 16), t.stack[d] = if d = s.sp.val then r else s.stack[d] := by
  unfold State.push at h
  split at h
  · rename_i hs
    obtain rfl := Option.some.inj h
    exact ⟨hs, rfl, rfl, fun d hd => by simp only [Vector.getElem_set, eq_comm]⟩
  · exact absurd h (by simp)

/-- A push answers exactly where a slot is free. -/
theorem State.push_isSome (s : State) (r : Word) : (s.push r).isSome = true ↔ s.sp.val < 16 := by
  unfold State.push; split <;> simp_all

/-- All that a pop does where it answers: the slots keep their values. -/
theorem State.pop_spec {r : Word} (h : s.pop = some (r, t)) :
    ∃ _ : 0 < s.sp.val, t = { s with sp := t.sp } ∧ t.sp.val = s.sp.val - 1 ∧
      r = s.stack[s.sp.val - 1]'(by omega) := by
  unfold State.pop at h
  split at h
  · rename_i hs
    obtain ⟨rfl, rfl⟩ := Prod.mk.inj (Option.some.inj h)
    exact ⟨hs, rfl, rfl, rfl⟩
  · exact absurd h (by simp)

/-- A pop answers exactly where an address is held. -/
theorem State.pop_isSome (s : State) : s.pop.isSome = true ↔ 0 < s.sp.val := by
  unfold State.pop; split <;> simp_all

/-! ### Faults (40_engine_cycle.md R128) -/

/-- All that a fault of the execute part does. -/
theorem raise_eq (k : FaultKind) (i : Instr) (s : State) :
    raise k i s =
      .next { s with pc := s.pc - 2, run := .halted, fault := some ⟨k, s.pc - 2, some (encode i)⟩ } := rfl

/-- The state a raised fault answers, read back from its outcome (R128). -/
theorem raise_next {k : FaultKind} {i : Instr} {s t : State} (h : raise k i s = .next t) :
    t = { s with pc := s.pc - 2, run := .halted, fault := some ⟨k, s.pc - 2, some (encode i)⟩ } :=
  (Host.Outcome.next.inj h).symm

/-- All that a skip can do: nothing, or a further advance by 2 (R143). -/
theorem skipIf_next {c : Bool} {s t : State} (h : skipIf c s = .next t) :
    (c = false ∧ t = s) ∨ (c = true ∧ t = { s with pc := s.pc + 2 }) := by
  cases h
  cases c
  · exact .inl ⟨rfl, rfl⟩
  · exact .inr ⟨rfl, rfl⟩

/-- The advance undone is the address of the instruction. -/
@[simp] theorem advance_undone (s : State) : (advance s).pc - 2 = s.pc := by simp [advance]

/-! ### Operand forms -/

/-- The zero-extended address has the value of `nnn` (30_encoding.md R93). -/
@[simp] theorem zextAddr_toNat (nnn : Addr12) : (zextAddr nnn).toNat = nnn.toNat := by
  have := nnn.isLt
  simp only [zextAddr, BitVec.toNat_setWidth]
  omega

/-- The sum of JP V0 is not reduced (41_control_flow.md R147). -/
@[simp] theorem offsetTarget_toNat (b : Byte) (nnn : Addr12) :
    (offsetTarget b nnn).toNat = b.toNat + nnn.toNat := by
  have := nnn.isLt
  have := b.isLt
  simp only [offsetTarget, BitVec.toNat_add, BitVec.toNat_setWidth]
  omega

/-- A latch index exists exactly up to 15 (45_timers_input.md R230). -/
theorem keyIndex_eq_some {b : Byte} {k : Fin 16} : keyIndex b = some k ↔ b.toNat = k.val := by
  unfold keyIndex
  split
  · simp only [Option.some.injEq, Fin.ext_iff]
  · have := k.isLt
    simp only [reduceCtorEq, false_iff]
    omega

theorem keyIndex_eq_none {b : Byte} : keyIndex b = none ↔ b.toNat > 15 := by
  unfold keyIndex
  split
  · simp only [reduceCtorEq, false_iff]; omega
  · simp only [true_iff]; omega

/-- The register bytes LD [I],Vx stores: V0..Vx in order (43_index_memory.md R194). -/
@[simp] theorem State.regsUpTo_length (s : State) (x : Reg) : (s.regsUpTo x).length = x.val + 1 := by
  have := x.isLt
  simp only [State.regsUpTo, List.length_take, Vector.length_toList]
  omega

theorem State.regsUpTo_getElem (s : State) (x : Reg) (k : Nat) (h : k < (s.regsUpTo x).length) :
    (s.regsUpTo x)[k] = s.V ⟨k, by have := x.isLt; rw [State.regsUpTo_length] at h; omega⟩ := by
  simp [State.regsUpTo, State.V]

/-- The registers after a load: `V[k + j]` for the bytes, the others as before (R195). -/
theorem loadRegs_getElem (bs : List Byte) (k : Nat) (v : Vector Byte 16) (r : Nat) (hr : r < 16) :
    (loadRegs bs k v)[r] = if h : k ≤ r ∧ r < k + bs.length then bs[r - k]'(by omega) else v[r] := by
  induction bs generalizing k v with
  | nil =>
    have : ¬ (k ≤ r ∧ r < k + 0) := by omega
    simp only [loadRegs, List.length_nil, this, dite_false]
  | cons b bs ih =>
    rw [loadRegs, ih]
    by_cases h : k + 1 ≤ r ∧ r < k + 1 + bs.length
    · have h' : k ≤ r ∧ r < k + (b :: bs).length := by simp only [List.length_cons]; omega
      have e : r - k = (r - (k + 1)) + 1 := by omega
      simp only [h, h', and_self, dite_true, e, List.getElem_cons_succ]
    · by_cases hk : k = r
      · subst hk
        simp
      · have h' : ¬ (k ≤ r ∧ r < k + (b :: bs).length) := by simp only [List.length_cons]; omega
        simp only [h, h', dite_false, Vector.getElem_setIfInBounds hr, if_neg hk]

/-! ### Flags (42_alu.md R173) -/

@[simp] theorem bool01_toNat (c : Bool) : (bool01 c).toNat = if c = true then 1 else 0 := by
  cases c <;> rfl

/-! ### Timers and the latch -/

/-- One decrement, floored at 0 (60_exceptions.md R257). -/
@[simp] theorem countDown_toNat (t : Byte) : (countDown t).toNat = t.toNat - 1 := by
  unfold countDown
  split
  · simp_all
  · rename_i h
    have h0 : t.toNat ≠ 0 := fun e => h (BitVec.eq_of_toNat_eq e)
    have := t.isLt
    rw [BitVec.toNat_sub, show (1 : Byte).toNat = 1 from rfl]
    omega

/-- All that a key write does: the wait ends, with the key in its register, exactly at a released-to-pressed edge
(60_exceptions.md R261, R263). -/
theorem setKeyState_cases (k : Fin 16) (p : Bool) (s : State) :
    (∃ x, s.run = .suspended x ∧ p = true ∧ s.pressed k = false ∧
      setKeyState k p s =
        { (s.setV x (BitVec.ofNat 8 k.val)) with key := s.key.set k.val p, run := .ready }) ∨
    ((∀ x, s.run = .suspended x → p = false ∨ s.pressed k = true) ∧
      setKeyState k p s = { s with key := s.key.set k.val p }) := by
  unfold setKeyState
  split
  · rename_i x hx
    by_cases h : (p && !s.pressed k) = true
    · rw [if_pos h]
      simp only [Bool.and_eq_true, Bool.not_eq_eq_eq_not, Bool.not_true] at h
      exact .inl ⟨x, hx, h.1, h.2, rfl⟩
    · rw [if_neg h]
      refine .inr ⟨fun _ _ => ?_, rfl⟩
      cases p <;> simp_all
  · rename_i hx
    exact .inr ⟨fun x h => absurd (hx.symm.trans h) (by simp), rfl⟩
  · rename_i hx
    exact .inr ⟨fun x h => absurd (hx.symm.trans h) (by simp), rfl⟩

/-! ### The engine and the events -/

/-- All that a cycle can do where it answers: a fetch fault, an unknown opcode, or the execute part of the
instruction dispatched (40_engine_cycle.md R120). -/
theorem cycle_cases (s : State) :
    (s.pc.toNat > 0xFFE ∧ cycle s = takeFault .outOfBounds s.pc none s) ∨
    (∃ w, s.pc.toNat ≤ 0xFFE ∧ fetch s = some w ∧
      ((∃ e, dispatch s.cfg w = .error e ∧ cycle s = takeFault .unknownOpcode s.pc (some w) s) ∨
       ∃ i, dispatch s.cfg w = .ok i ∧ cycle s = exec i (advance s))) := by
  unfold cycle
  by_cases h : s.pc.toNat ≤ 0xFFE
  · refine .inr ⟨_, h, by rw [fetch_eq, if_pos h], ?_⟩
    rw [fetch_eq, if_pos h]
    dsimp only
    split
    · exact .inl ⟨_, ‹_›, rfl⟩
    · exact .inr ⟨_, ‹_›, rfl⟩
  · refine .inl ⟨by omega, ?_⟩
    rw [fetch_eq, if_neg h]

/-- An engine step that answers was taken in RUN = Ready (R120, R126, R127). -/
theorem engineStep_next (h : engineStep s = .next t) :
    s.run = .ready ∧ cycle { s with started := true } = .next t := by
  unfold engineStep at h
  split at h
  · exact ⟨‹_›, h⟩
  · exact absurd h (by simp)
  · exact absurd h (by simp)

/-- All that an event can do where it is taken (60_exceptions.md R264). -/
theorem deliver_next {e : Event} (h : deliver e s = .next t) :
    s.run ≠ .halted ∧
    ((e = .step ∧ engineStep s = .next t) ∨
     (s.started = true ∧
       ((e = .tick ∧ t = tick s) ∨ (e = .snapshot ∧ t = s) ∨
        ∃ k p, ∃ hk : k < 16, e = .key k p ∧ t = setKeyState ⟨k, hk⟩ p s)) ∨
     (s.started = false ∧ ∃ bytes o u, e = .load bytes o ∧ s.load bytes o = some u ∧
       t = { u with started := true })) := by
  unfold deliver at h
  split at h
  · exact absurd h (by simp)
  · refine ⟨‹_›, ?_⟩
    split at h
    · exact .inl ⟨rfl, h⟩
    · split at h
      · exact .inr (.inl ⟨‹_›, .inl ⟨rfl, (Host.Outcome.next.inj h).symm⟩⟩)
      · exact absurd h (by simp)
    · unfold deliverKey at h
      split at h
      · split at h
        · exact .inr (.inl ⟨‹_›, .inr (.inr ⟨_, _, ‹_›, rfl, (Host.Outcome.next.inj h).symm⟩)⟩)
        · exact absurd h (by simp)
      · exact absurd h (by simp)
    · split at h
      · exact .inr (.inl ⟨‹_›, .inr (.inl ⟨rfl, (Host.Outcome.next.inj h).symm⟩)⟩)
      · exact absurd h (by simp)
    · unfold deliverLoad at h
      split at h
      · exact absurd h (by simp)
      · split at h
        · exact .inr (.inr ⟨by simpa using ‹¬ s.started = true›, _, _, _, rfl, ‹_›,
            (Host.Outcome.next.inj h).symm⟩)
        · exact absurd h (by simp)

end Sys2Proof.Machine
end

