-- ==== Sys2Proof/Laws/PerInstr.lean ====
section
/-! SUPPORT. Laws that hold of every instruction, one lemma per constructor. -/

namespace Sys2Proof.Laws

/-- The major opcode of an instruction, bits 15..12 of its row (30_encoding.md R94). -/
def majorOpcode : Instr → Nat
  | .cls => 0x0
  | .ret => 0x0
  | .jp _ => 0x1
  | .call _ => 0x2
  | .seImm _ _ => 0x3
  | .sneImm _ _ => 0x4
  | .seReg _ _ _ => 0x5
  | .ldImm _ _ => 0x6
  | .addImm _ _ => 0x7
  | .ldReg _ _ => 0x8
  | .orReg _ _ => 0x8
  | .andReg _ _ => 0x8
  | .xorReg _ _ => 0x8
  | .addReg _ _ => 0x8
  | .subReg _ _ => 0x8
  | .shr _ _ => 0x8
  | .subnReg _ _ => 0x8
  | .shl _ _ => 0x8
  | .sneReg _ _ _ => 0x9
  | .ldI _ => 0xA
  | .jpV0 _ => 0xB
  | .rnd _ _ => 0xC
  | .drw _ _ _ => 0xD
  | .skp _ => 0xE
  | .sknp _ => 0xE
  | .ldVxDT _ => 0xF
  | .ldVxK _ => 0xF
  | .ldDTVx _ => 0xF
  | .ldSTVx _ => 0xF
  | .addI _ => 0xF
  | .ldF _ => 0xF
  | .ldB _ => 0xF
  | .ldMemVx _ => 0xF
  | .ldVxMem _ => 0xF

/-- The word of an instruction has its row's major opcode (R94, R99). -/
def MajorOpcode.Statement (i : Instr) : Prop := fieldOp (encode i) = majorOpcode i

theorem MajorOpcode.cls : MajorOpcode.Statement (.cls) := (by decide : fieldOp _ = 0)

theorem MajorOpcode.ret : MajorOpcode.Statement (.ret) := (by decide : fieldOp _ = 0)

theorem MajorOpcode.jp (nnn : Addr12) : MajorOpcode.Statement (.jp nnn) := fieldOp_wordNNN (by decide) nnn

theorem MajorOpcode.call (nnn : Addr12) : MajorOpcode.Statement (.call nnn) := fieldOp_wordNNN (by decide) nnn

theorem MajorOpcode.seImm (x : Reg) (nn : Byte) : MajorOpcode.Statement (.seImm x nn) := fieldOp_wordXNN (by decide) x nn

theorem MajorOpcode.sneImm (x : Reg) (nn : Byte) : MajorOpcode.Statement (.sneImm x nn) := fieldOp_wordXNN (by decide) x nn

theorem MajorOpcode.seReg (x y : Reg) (n : Nibble) : MajorOpcode.Statement (.seReg x y n) := fieldOp_wordXYN (by decide) x y n

theorem MajorOpcode.ldImm (x : Reg) (nn : Byte) : MajorOpcode.Statement (.ldImm x nn) := fieldOp_wordXNN (by decide) x nn

theorem MajorOpcode.addImm (x : Reg) (nn : Byte) : MajorOpcode.Statement (.addImm x nn) := fieldOp_wordXNN (by decide) x nn

theorem MajorOpcode.ldReg (x y : Reg) : MajorOpcode.Statement (.ldReg x y) := fieldOp_wordXYN (by decide) x y _

theorem MajorOpcode.orReg (x y : Reg) : MajorOpcode.Statement (.orReg x y) := fieldOp_wordXYN (by decide) x y _

theorem MajorOpcode.andReg (x y : Reg) : MajorOpcode.Statement (.andReg x y) := fieldOp_wordXYN (by decide) x y _

theorem MajorOpcode.xorReg (x y : Reg) : MajorOpcode.Statement (.xorReg x y) := fieldOp_wordXYN (by decide) x y _

theorem MajorOpcode.addReg (x y : Reg) : MajorOpcode.Statement (.addReg x y) := fieldOp_wordXYN (by decide) x y _

theorem MajorOpcode.subReg (x y : Reg) : MajorOpcode.Statement (.subReg x y) := fieldOp_wordXYN (by decide) x y _

theorem MajorOpcode.shr (x y : Reg) : MajorOpcode.Statement (.shr x y) := fieldOp_wordXYN (by decide) x y _

theorem MajorOpcode.subnReg (x y : Reg) : MajorOpcode.Statement (.subnReg x y) := fieldOp_wordXYN (by decide) x y _

theorem MajorOpcode.shl (x y : Reg) : MajorOpcode.Statement (.shl x y) := fieldOp_wordXYN (by decide) x y _

theorem MajorOpcode.sneReg (x y : Reg) (n : Nibble) : MajorOpcode.Statement (.sneReg x y n) := fieldOp_wordXYN (by decide) x y n

theorem MajorOpcode.ldI (nnn : Addr12) : MajorOpcode.Statement (.ldI nnn) := fieldOp_wordNNN (by decide) nnn

theorem MajorOpcode.jpV0 (nnn : Addr12) : MajorOpcode.Statement (.jpV0 nnn) := fieldOp_wordNNN (by decide) nnn

theorem MajorOpcode.rnd (x : Reg) (nn : Byte) : MajorOpcode.Statement (.rnd x nn) := fieldOp_wordXNN (by decide) x nn

theorem MajorOpcode.drw (x y : Reg) (n : Nibble) : MajorOpcode.Statement (.drw x y n) := fieldOp_wordXYN (by decide) x y n

theorem MajorOpcode.skp (x : Reg) : MajorOpcode.Statement (.skp x) := fieldOp_wordXNN (by decide) x _

theorem MajorOpcode.sknp (x : Reg) : MajorOpcode.Statement (.sknp x) := fieldOp_wordXNN (by decide) x _

theorem MajorOpcode.ldVxDT (x : Reg) : MajorOpcode.Statement (.ldVxDT x) := fieldOp_wordXNN (by decide) x _

theorem MajorOpcode.ldVxK (x : Reg) : MajorOpcode.Statement (.ldVxK x) := fieldOp_wordXNN (by decide) x _

theorem MajorOpcode.ldDTVx (x : Reg) : MajorOpcode.Statement (.ldDTVx x) := fieldOp_wordXNN (by decide) x _

theorem MajorOpcode.ldSTVx (x : Reg) : MajorOpcode.Statement (.ldSTVx x) := fieldOp_wordXNN (by decide) x _

theorem MajorOpcode.addI (x : Reg) : MajorOpcode.Statement (.addI x) := fieldOp_wordXNN (by decide) x _

theorem MajorOpcode.ldF (x : Reg) : MajorOpcode.Statement (.ldF x) := fieldOp_wordXNN (by decide) x _

theorem MajorOpcode.ldB (x : Reg) : MajorOpcode.Statement (.ldB x) := fieldOp_wordXNN (by decide) x _

theorem MajorOpcode.ldMemVx (x : Reg) : MajorOpcode.Statement (.ldMemVx x) := fieldOp_wordXNN (by decide) x _

theorem MajorOpcode.ldVxMem (x : Reg) : MajorOpcode.Statement (.ldVxMem x) := fieldOp_wordXNN (by decide) x _

end Sys2Proof.Laws
end

