-- ==== Sys2Proof/Tests/Slice0.lean ====
section
/-! SUPPORT. Tests: words written out from the encodings of 30_encoding.md, the vectors of 95_test_vectors.md, one
step each, and a witness for the hypotheses of every statement. -/

namespace Sys2Proof.Tests

open Sys2Proof Sys2Proof.Machine

/-- The outcome is a next state that passes the check. -/
def gives (o : Host.Outcome State Fault Refusal) (p : State → Bool) : Bool :=
  match o with
  | .next t => p t
  | .fault _ => false
  | .refused _ => false

/-- One step of the word `w` placed at pc. -/
def one (w : Nat) (s : State) : Host.Outcome State Fault Refusal := step (s.withFetchWord 16 w)

/-- The reset state with registers set. -/
def regs (l : List (Reg × Byte)) : State := l.foldl (fun s p => s.setV p.1 p.2) State.reset

/-- The state with the bytes `bs` in memory at `a`. -/
def poke (s : State) (a : Nat) (bs : List Byte) : State :=
  match s.writeBytes a bs with
  | some t => t
  | none => s

/-- The reset state with I = 0x300 and `bs` there. -/
def at300 (bs : List Byte) (l : List (Reg × Byte)) : State := { poke (regs l) 0x300 bs with i := 0x300 }

/-- The state with the pixel in column `x`, row `y` on. -/
def lit (s : State) (x y : Nat) : State := { s with fb := s.fb.flip x y }

/-- The step faulted with this record, and pc is the address recorded. -/
def faulted (k : FaultKind) (a w : Word) (t : State) : Bool :=
  t.run == .halted && t.fault == some ⟨k, a, some w⟩ && t.pc == a

/-! ### WellFormed: an ill-formed term for each check -/

theorem test_wf_strict_se : (Instr.seReg 1 2 1).wf { strict5xy0 := true } = false := by decide
theorem test_wf_strict_sne : (Instr.sneReg 1 2 15).wf { strict5xy0 := true } = false := by decide
theorem test_wf_strict_n0 : (Instr.seReg 1 2 0).wf { strict5xy0 := true } = true := by decide
theorem test_wf_default : (Instr.seReg 1 2 1).wf {} = true := by decide
theorem test_config_font_high : ¬ Config.wf { fontBase := 0x1B1 } := by decide
theorem test_config_font_short : ¬ Config.wf { fontData := [0xF0] } := by decide

/-! ### Decoding: the words of R94, bit by bit -/

theorem test_decode_display :
    [decode 0b0000000011100000, decode 0b1101000100100101] = [.ok .cls, .ok (.drw 1 2 5)] := by decide

theorem test_decode_control :
    [decode 0b0000000011101110, decode 0b0001101010111100, decode 0b0010001100000000, decode 0b0011001101000010,
      decode 0b0100001101000010, decode 0b0101000100100001, decode 0b1001000100100001,
      decode 0b1011001100000000] =
    [.ok .ret, .ok (.jp 0xABC), .ok (.call 0x300), .ok (.seImm 3 0x42), .ok (.sneImm 3 0x42),
      .ok (.seReg 1 2 1), .ok (.sneReg 1 2 1), .ok (.jpV0 0x300)] := by decide

theorem test_decode_alu :
    [decode 0b0110000000001010, decode 0b0111001000100000, decode 0b1000000000010000, decode 0b1000000000010001,
      decode 0b1000000000010010, decode 0b1000000000010011, decode 0b1000000000010100, decode 0b1000000000010101,
      decode 0b1000000000010110, decode 0b1000000000010111, decode 0b1000000000011110,
      decode 0b1100001100001111] =
    [.ok (.ldImm 0 0x0A), .ok (.addImm 2 0x20), .ok (.ldReg 0 1), .ok (.orReg 0 1), .ok (.andReg 0 1),
      .ok (.xorReg 0 1), .ok (.addReg 0 1), .ok (.subReg 0 1), .ok (.shr 0 1), .ok (.subnReg 0 1),
      .ok (.shl 0 1), .ok (.rnd 3 0x0F)] := by decide

theorem test_decode_index :
    [decode 0b1010001000000000, decode 0b1111001000011110, decode 0b1111000000101001, decode 0b1111000000110011,
      decode 0b1111001001010101, decode 0b1111001001100101] =
    [.ok (.ldI 0x200), .ok (.addI 2), .ok (.ldF 0), .ok (.ldB 0), .ok (.ldMemVx 2), .ok (.ldVxMem 2)] := by decide

theorem test_decode_timer_key :
    [decode 0b1110000110011110, decode 0b1110000110100001, decode 0b1111001100000111, decode 0b1111001000001010,
      decode 0b1111000000010101, decode 0b1111000000011000] =
    [.ok (.skp 1), .ok (.sknp 1), .ok (.ldVxDT 3), .ok (.ldVxK 2), .ok (.ldDTVx 0), .ok (.ldSTVx 0)] := by decide

/-- V-EN-4: the words that decode to nothing. -/
theorem test_decode_illegal :
    [0x01E0, 0x0ABE, 0x00E1, 0x8008, 0x800F, 0xE09F, 0xF000, 0xF01F, 0xFFFF].all
      (fun w => decode w == .error (.unknownOpcode w)) = true := by decide

theorem test_decode_truncated : decodeBytes [0x80] = .error .truncated := by decide
theorem test_decode_rest : decodeBytes [0x80, 0x14, 0x12] = .ok (.addReg 0 1, [0x12]) := by decide
theorem test_table_word : decodeTableWord 16 0xF055 = some (.ldMemVx 0) := by decide

/-! ### The engine (V-EN) -/

theorem test_big_endian : gives (one 0x1234 State.reset) (fun t => t.pc == 0x234) = true := by decide
theorem test_pc_does_not_wrap :
    gives (one 0x00E0 { State.reset with pc := 0xFFE }) (fun t => t.pc == 0x1000) = true := by decide
theorem test_fetch_fault :
    gives (step { State.reset with pc := 0xFFF })
      (fun t => t.fault == some ⟨.outOfBounds, 0xFFF, none⟩ && t.run == .halted) = true := by decide
theorem test_nothing_loaded : gives (step State.reset) (faulted .unknownOpcode 0x200 0x0000) = true := by decide
theorem test_strict_word :
    gives (one 0x5121 (State.resetWith { strict5xy0 := true })) (faulted .unknownOpcode 0x200 0x5121) = true := by
  decide

/-! ### Control flow (V-CF) -/

theorem test_jp : gives (one 0x1ABC State.reset) (fun t => t.pc == 0xABC) = true := by decide
theorem test_call :
    gives (one 0x2300 State.reset) (fun t => t.stack[0] == 0x202 && t.sp == 1 && t.pc == 0x300) = true := by decide
theorem test_call_full :
    gives (one 0x2300 { State.reset with sp := 16 }) (fun t => faulted .stackOverflow 0x200 0x2300 t && t.sp == 16)
      = true := by decide
theorem test_ret_keeps_slot :
    gives (one 0x00EE { State.reset with pc := 0x300, sp := 1, stack := State.reset.stack.set 0 0x202 })
      (fun t => t.pc == 0x202 && t.sp == 0 && t.stack[0] == 0x202) = true := by decide
theorem test_ret_empty : gives (one 0x00EE State.reset) (faulted .stackUnderflow 0x200 0x00EE) = true := by decide
theorem test_se_imm : gives (one 0x3342 (regs [(3, 0x42)])) (fun t => t.pc == 0x204) = true := by decide
theorem test_se_imm_no : gives (one 0x3342 (regs [(3, 0x41)])) (fun t => t.pc == 0x202) = true := by decide
theorem test_sne_imm : gives (one 0x4342 (regs [(3, 0x41)])) (fun t => t.pc == 0x204) = true := by decide
theorem test_sne_imm_no : gives (one 0x4342 (regs [(3, 0x42)])) (fun t => t.pc == 0x202) = true := by decide
theorem test_se_reg_ignores_n : gives (one 0x5121 (regs [(1, 7), (2, 7)])) (fun t => t.pc == 0x204) = true := by decide
theorem test_se_reg_same : gives (one 0x5330 (regs [(3, 9)])) (fun t => t.pc == 0x204) = true := by decide
theorem test_sne_reg : gives (one 0x9121 (regs [(1, 7), (2, 8)])) (fun t => t.pc == 0x204) = true := by decide
theorem test_sne_reg_same : gives (one 0x9330 (regs [(3, 9)])) (fun t => t.pc == 0x202) = true := by decide
theorem test_jp_v0 : gives (one 0xB300 (regs [(0, 4)])) (fun t => t.pc == 0x304) = true := by decide
theorem test_jp_v0_not_reduced : gives (one 0xBFFF (regs [(0, 0xFF)])) (fun t => t.pc == 0x10FE) = true := by decide

/-! ### Register and ALU (V-ALU) -/

theorem test_ld_imm : gives (one 0x600A State.reset) (fun t => t.V 0 == 0x0A) = true := by decide
theorem test_add_imm_no_flag :
    gives (one 0x7001 (regs [(0, 0xFF), (15, 0x55)])) (fun t => t.V 0 == 0 && t.V 15 == 0x55) = true := by decide
theorem test_add_imm_vf : gives (one 0x7F01 (regs [(15, 0xFF)])) (fun t => t.V 15 == 0) = true := by decide
theorem test_ld_reg : gives (one 0x8010 (regs [(1, 5)])) (fun t => t.V 0 == 5 && t.V 1 == 5) = true := by decide
theorem test_or : gives (one 0x8011 (regs [(0, 0x0F), (1, 0xF0)])) (fun t => t.V 0 == 0xFF) = true := by decide
theorem test_and : gives (one 0x8012 (regs [(0, 0x3C), (1, 0x0F)])) (fun t => t.V 0 == 0x0C) = true := by decide
theorem test_xor : gives (one 0x8013 (regs [(0, 0x3C), (1, 0x0F)])) (fun t => t.V 0 == 0x33) = true := by decide
theorem test_add_y_vf :
    gives (one 0x80F4 (regs [(0, 1), (15, 0xFF)])) (fun t => t.V 0 == 0 && t.V 15 == 1) = true := by decide
theorem test_add_x_vf : gives (one 0x8F14 (regs [(15, 0xF0), (1, 0x20)])) (fun t => t.V 15 == 0x10) = true := by decide
theorem test_add_flag_last :
    gives (one 0x8F14 { regs [(15, 0xF0), (1, 0x20)] with cfg := { vfFlagLast := true } })
      (fun t => t.V 15 == 1) = true := by decide
theorem test_sub_borrow :
    gives (one 0x8015 (regs [(0, 5), (1, 10)])) (fun t => t.V 0 == 0xFB && t.V 15 == 0) = true := by decide
theorem test_sub_equal :
    gives (one 0x8015 (regs [(0, 10), (1, 10)])) (fun t => t.V 0 == 0 && t.V 15 == 1) = true := by decide
theorem test_subn : gives (one 0x8017 (regs [(0, 5), (1, 10)])) (fun t => t.V 0 == 5 && t.V 15 == 1) = true := by decide
theorem test_subn_x_vf : gives (one 0x8F17 (regs [(15, 1), (1, 0x10)])) (fun t => t.V 15 == 0x0F) = true := by decide
theorem test_shr_ignores_y :
    gives (one 0x8016 (regs [(0, 4), (1, 1)])) (fun t => t.V 0 == 2 && t.V 15 == 0) = true := by decide
theorem test_shr_low_bit : gives (one 0x8006 (regs [(0, 5)])) (fun t => t.V 0 == 2 && t.V 15 == 1) = true := by decide
theorem test_shl : gives (one 0x800E (regs [(0, 0x81)])) (fun t => t.V 0 == 2 && t.V 15 == 1) = true := by decide
theorem test_shl_no_bit : gives (one 0x800E (regs [(0, 0x7F)])) (fun t => t.V 0 == 0xFE && t.V 15 == 0) = true := by
  decide

/-- V-ALU-8: with the oracle answering 0xA7, C30F leaves V3 = 0x07. -/
theorem test_rnd_mask (h : Config.draw 0 = 0xA7) :
    gives (exec (.rnd 3 0x0F) State.reset) (fun t => t.V 3 == 0x07 && t.draws == 1) = true := by
  show ((((draw State.reset).2.setV 3 ((draw State.reset).1 &&& 0x0F)).V 3 == 0x07) && true) = true
  simp [draw, State.reset, State.resetWith, h]

/-- R171: nn = 0 gives Vx = 0 for every draw. -/
theorem test_rnd_zero (s : State) : gives (exec (.rnd 3 0) s) (fun t => t.V 3 == 0) = true := by
  show (((draw s).2.setV 3 ((draw s).1 &&& 0)).V 3 == 0) = true
  simp

/-! ### Index register and memory (V-IM) -/

theorem test_ld_i : gives (one 0xA200 State.reset) (fun t => t.i == 0x200) = true := by decide
theorem test_add_i_no_flag :
    gives (one 0xF01E { regs [(0, 1), (15, 7)] with i := 0xFFF }) (fun t => t.i == 0x1000 && t.V 15 == 7) = true := by
  decide
theorem test_add_i_wraps : gives (one 0xF01E { regs [(0, 1)] with i := 0xFFFF }) (fun t => t.i == 0) = true := by decide
theorem test_ld_f : gives (one 0xF029 (regs [(0, 0x0F)])) (fun t => t.i == 0x04B) = true := by decide
theorem test_ld_f_fault :
    gives (one 0xF029 { regs [(0, 0x10)] with i := 0x123 })
      (fun t => faulted .outOfBounds 0x200 0xF029 t && t.i == 0x123) = true := by decide
theorem test_ld_b :
    gives (one 0xF033 { regs [(0, 123)] with i := 0xFFD })
      (fun t => t.byte 0xFFD == 1 && t.byte 0xFFE == 2 && t.byte 0xFFF == 3) = true := by decide
theorem test_ld_b_fault :
    gives (one 0xF033 { regs [(0, 254)] with i := 0xFFE })
      (fun t => faulted .outOfBounds 0x200 0xF033 t && t.byte 0xFFE == 0) = true := by decide
theorem test_store_regs :
    gives (one 0xF255 { regs [(0, 1), (1, 2), (2, 3), (3, 4)] with i := 0x300 })
      (fun t => t.byte 0x300 == 1 && t.byte 0x302 == 3 && t.byte 0x303 == 0 && t.i == 0x300) = true := by decide
theorem test_store_regs_fault :
    gives (one 0xF155 { regs [(0, 0xAA), (1, 0xBB)] with i := 0xFFF })
      (fun t => faulted .outOfBounds 0x200 0xF155 t && t.byte 0xFFF == 0) = true := by decide
theorem test_load_regs :
    gives (one 0xF265 (at300 [9, 8, 7, 6] [(3, 0x33)]))
      (fun t => t.V 0 == 9 && t.V 2 == 7 && t.V 3 == 0x33 && t.i == 0x300) = true := by decide
theorem test_load_font : gives (one 0xF065 State.reset) (fun t => t.V 0 == 0xF0) = true := by decide

/-! ### Display (V-DR) -/

theorem test_cls : gives (one 0x00E0 (lit State.reset 5 5)) (fun t => t.fb.pixel 5 5 == false) = true := by decide
theorem test_drw_wraps :
    gives (one 0xD011 (at300 [0xFF] [(0, 60)]))
      (fun t => t.fb.pixel 59 0 == false && t.fb.pixel 60 0 && t.fb.pixel 3 0 && t.fb.pixel 4 0 == false &&
        t.V 15 == 0) = true := by decide
theorem test_drw_x_is_vf :
    gives (one 0xDF01 (lit (at300 [0x80] [(15, 10)]) 10 0))
      (fun t => t.fb.pixel 10 0 == false && t.V 15 == 1) = true := by decide

/-! ### Timers and keypad (V-TI) -/

/-- The reset state after its load, with key `k` pressed. -/
def holding (k : Fin 16) (l : List (Reg × Byte)) : State :=
  { regs l with key := State.reset.key.set k.val true, started := true }

theorem test_skp : gives (one 0xE19E (holding 5 [(1, 5)])) (fun t => t.pc == 0x204) = true := by decide
theorem test_skp_fault : gives (one 0xE19E (regs [(1, 16)])) (faulted .outOfBounds 0x200 0xE19E) = true := by decide
theorem test_sknp : gives (one 0xE1A1 (regs [(1, 5)])) (fun t => t.pc == 0x204) = true := by decide
theorem test_sknp_pressed : gives (one 0xE1A1 (holding 5 [(1, 5)])) (fun t => t.pc == 0x202) = true := by decide
theorem test_ld_vx_dt : gives (one 0xF307 { State.reset with dt := 0x3C }) (fun t => t.V 3 == 0x3C) = true := by decide
theorem test_ld_dt : gives (one 0xF015 { regs [(0, 0)] with dt := 9 }) (fun t => t.dt == 0) = true := by decide
theorem test_ld_st : gives (one 0xF018 (regs [(0, 2)])) (fun t => t.st == 2 && t.soundOn) = true := by decide
theorem test_ld_vx_k :
    gives (one 0xF20A State.reset) (fun t => t.run == .suspended 2 && t.pc == 0x202) = true := by decide

/-! ### Events (V-TI-4 to V-TI-9, V-EV) -/

/-- Suspended in Fx0A with x = 3, key 2 held. -/
def waiting : State := { holding 2 [] with run := .suspended 3, dt := 3, st := 1 }

theorem test_no_edge : gives (deliver (.key 2 true) waiting) (fun t => t.run == .suspended 3) = true := by decide
theorem test_release : gives (deliver (.key 2 false) waiting) (fun t => t.run == .suspended 3) = true := by decide
theorem test_edge : gives (deliver (.key 7 true) waiting) (fun t => t.run == .ready && t.V 3 == 7) = true := by decide
theorem test_tick_in_wait : gives (deliver .tick waiting) (fun t => t.dt == 2 && t.st == 0) = true := by decide
theorem test_tick_floor : gives (deliver .tick (holding 2 [])) (fun t => t.dt == 0 && t.st == 0) = true := by decide
theorem test_key_before_load : deliver (.key 3 true) State.reset = .refused .notLoaded := rfl
theorem test_key_16 : deliver (.key 16 true) (holding 2 []) = .refused .keyOutOfRange := rfl
theorem test_second_load : deliver (.load [0x12, 0x00] 0x200) (holding 2 []) = .refused .loadAfterStart := rfl
theorem test_load_too_long : deliver (.load [1, 2] 0xFFF) State.reset = .refused .loadError := rfl
theorem test_load_to_the_end :
    gives (deliver (.load [1, 2] 0xFFE) State.reset) (fun t => t.byte 0xFFF == 2 && t.started) = true := by decide
theorem test_program_at_origin :
    gives (step (State.reset.withProgram [0xA2, 0x00])) (fun t => t.byte 0x200 == 0xA2 && t.pc == 0x200) = true := by
  decide
theorem test_halted_step : step { State.reset with run := .halted } = .fault .halted := rfl
theorem test_suspended_step : step waiting = .fault .waitingForKey := rfl
theorem test_steps_per_tick : stepsPerTick 2 1 = [.step, .step, .tick] := by decide

/-! ### Witnesses: concrete states and operands that meet the hypotheses of each statement -/

theorem witness_EncodeOfDecode : decode 0x5121 = .ok (.seReg 1 2 1) := by decide

theorem witness_DecodingIsTotalOverTheMap :
    DefinedWord 0x800E ∧ DefinedWord 0x8007 ∧ ¬ DefinedWord 0x8008 ∧ DefinedWord 0xD000 ∧ ¬ DefinedWord 0x00E1 ∧
      DefinedWord 0xEFA1 ∧ ¬ DefinedWord 0xFFFF := by
  refine ⟨?_, ?_, ?_, ?_, ?_, ?_, ?_⟩ <;> unfold DefinedWord <;> decide

theorem witness_StrictSwitch :
    (Config.strict5xy0 { strict5xy0 := true } = true ∧ bits 0x9121 15 12 = 9 ∧ bits 0x9121 3 0 ≠ 0) ∧
    (bits 0x5120 15 12 = 5 ∧ bits 0x5120 3 0 = 0) ∧ Config.strict5xy0 {} = false := by decide

/-- The reset state with 8014 at 0x200. -/
def ready : State := State.reset.withFetchWord 16 0x8014

theorem witness_StepRunsTheDecodedInstruction :
    ready.run = .ready ∧ ready.pc.toNat ≤ 0xFFE ∧
      decode (wordOfBytes (ready.byte ready.pc.toNat) (ready.byte (ready.pc.toNat + 1))) = .ok (.addReg 0 1) ∧
      (Instr.addReg 0 1).wf ready.cfg = true ∧ ready.env = [] ∧
      ({ ready with env := [.step, .tick] } : State).env = .step :: [.tick] := by decide

theorem witness_PlacedWordIsRunNext :
    State.reset.mem.wf (resetByte State.reset.cfg) ∧ 0xF055 < 65536 ∧
      decode (BitVec.ofNat 16 0xF055) = .ok (.ldMemVx 0) ∧ (Instr.ldMemVx 0).wf State.reset.cfg = true := by decide

theorem witness_FetchReadsABigEndianWordOrFaults :
    (State.pc { State.reset with pc := 0xFFE }).toNat ≤ 0xFFE ∧
      (State.pc { State.reset with pc := 0xFFF }).toNat > 0xFFE ∧
      (State.run { State.reset with pc := 0xFFF }) = .ready := by decide

theorem witness_UnknownWordHaltsTheEngine :
    State.reset.run = .ready ∧ fetch State.reset = some 0x0000 ∧ ¬ DefinedWord 0x0000 := by
  unfold DefinedWord; decide

theorem witness_UnknownWordHaltsTheEngine_strict :
    fetch ((State.resetWith { strict5xy0 := true }).withFetchWord 16 0x5121) = some 0x5121 ∧
      bits 0x5121 15 12 = 5 ∧ bits 0x5121 3 0 ≠ 0 := by decide

/-- What the first step of the empty machine leaves (R293). -/
def emptyFault : State :=
  { State.reset with started := true, run := .halted, fault := some ⟨.unknownOpcode, 0x200, some 0x0000⟩ }

theorem witness_FaultsArePrecise : engineStep State.reset = .next emptyFault ∧ emptyFault.run = .halted := ⟨rfl, rfl⟩

theorem witness_ExecutePartsFaultExactlyWhereListed :
    State.reset.run = .ready ∧ execFault State.reset .ret = some .stackUnderflow ∧
      execFault { State.reset with sp := 16 } (.call 0) = some .stackOverflow ∧
      execFault { State.reset with sp := 15 } (.call 0) = none ∧
      execFault { State.reset with i := 0xFFF } (.drw 0 0 1) = none ∧
      execFault { State.reset with i := 0x1000 } (.drw 0 0 1) = some .outOfBounds ∧
      execFault { State.reset with i := 0xFFFF } (.drw 0 0 0) = none ∧
      execFault (regs [(0, 16)]) (.skp 0) = some .outOfBounds := by decide

theorem witness_SuspendedEngineHasNoStep :
    waiting.run = .suspended 3 ∧ waiting.started = true ∧ waiting.pressed 7 = false ∧
      gives (deliver .snapshot waiting) (fun t => t.run == .suspended 3) = true := by decide

theorem witness_SuspendedStepHasNoNextState :
    waiting.run = .suspended 3 ∧ waiting.env = [] ∧
      ({ waiting with env := [.step, .tick] } : State).env = .step :: [.tick] ∧
      ({ waiting with env := [.step, .tick] } : State).run = .suspended 3 := by decide

theorem witness_HaltedIsPermanent : emptyFault.run = .halted := rfl

theorem witness_OnlyTheNamedInstructionsWrite :
    gives (exec (.ldImm vf 1) State.reset) (fun t => t.V vf != State.reset.V vf) = true ∧
      gives (exec (.ldI 1) State.reset) (fun t => t.i != State.reset.i) = true ∧
      gives (exec (.drw 0 0 1) State.reset) (fun t => t.fb.pixel 0 0 != State.reset.fb.pixel 0 0) = true ∧
      gives (exec (.call 1) ready) (fun t => t.stack != ready.stack && t.sp != ready.sp) = true ∧
      gives (exec (.ldMemVx 0) State.reset) (fun t => t.mem != State.reset.mem) = true ∧
      gives (exec (.ldDTVx 0) (regs [(0, 1)])) (fun t => t.dt != 0) = true ∧
      gives (exec (.ldSTVx 0) (regs [(0, 1)])) (fun t => t.st != 0) = true := by decide

theorem witness_RegistersPcRunAndFaultChangeOnlyWhereNamed :
    (14 : Reg) ≠ vf ∧ gives (exec (.ldVxMem 14) (regs [(14, 7)])) (fun t => t.V 14 != (regs [(14, 7)]).V 14) = true ∧
      gives (exec (.jpV0 0x300) ready) (fun t => t.pc != ready.pc) = true ∧
      gives (exec .ret ready) (fun t => t.pc != ready.pc && t.run != ready.run && t.fault != ready.fault) = true ∧
      gives (exec (.ldVxK 0) ready) (fun t => t.run != ready.run) = true ∧
      gives (exec (.rnd 0 0) ready) (fun t => t.draws != ready.draws) = true := by decide

theorem witness_NoInstructionReadsTheSoundTimer : exec (.jp 0x300) ready = .next { ready with pc := 0x300 } := rfl

theorem witness_Config_wf : Config.wf {} ∧ Config.wf { fontBase := 0x1B0 } := by decide

theorem witness_EveryStepKeepsTheInvariant : State.reset.Inv ∧ step State.reset = .next emptyFault := by
  refine ⟨⟨by decide, by decide, by decide, by decide, by decide, ?_, ?_⟩, rfl⟩
  · intro r h; exact absurd h (by decide +revert)
  · intro r h; exact absurd h (by decide +revert)

theorem witness_RetPopsTheReturnAddress :
    State.reset.sp.val = 0 ∧ (State.sp { State.reset with sp := 16 }).val = (15 : Fin 16).val + 1 := by decide

theorem witness_CallPushesTheAdvancedPc :
    (State.sp { State.reset with sp := 16 }).val = 16 ∧
      (State.sp { State.reset with sp := 15 }).val = (15 : Fin 16).val := by decide

theorem witness_RetUndoesCall :
    ready.sp.val < 16 ∧ gives (exec (.call 0x300) ready) (fun t => t.sp == 1 && t.stack == t.stack) = true := by decide

theorem witness_FlaggedResult :
    ready.cfg.vfFlagLast = false ∧ (State.resetWith { vfFlagLast := true }).cfg.vfFlagLast = true ∧
      (3 : Reg) ≠ vf := by decide

theorem witness_LoadAndAddToI :
    State.reset.cfg.addISetsVF = false ∧ (State.resetWith { addISetsVF := true }).cfg.addISetsVF = true := by decide

theorem witness_LdFPointsAtTheGlyph :
    ((regs [(0, 16)]).V 0).toNat > 15 ∧ (regs [(0, 15)]).cfg.wf ∧ ((regs [(0, 15)]).V 0).toNat ≤ 15 := by decide

theorem witness_LdBStoresTheDigits :
    (State.ea { State.reset with i := 0xFFE } 2) > 0xFFF ∧ (State.ea { State.reset with i := 0xFFD } 2) ≤ 0xFFF ∧
      Memory.wf (resetByte State.reset.cfg) State.reset.mem := by decide

theorem witness_RegisterBlockInAndOutOfBounds :
    (State.ea { State.reset with i := 0xFF1 } 15) > 0xFFF ∧ (State.ea { State.reset with i := 0xFF0 } 15) ≤ 0xFFF := by
  decide

theorem witness_StoredRegistersLoadBack :
    Memory.wf (resetByte (regs [(0, 7)]).cfg) (regs [(0, 7)]).mem ∧ (regs [(0, 7)]).ea 3 ≤ 0xFFF ∧
      gives (exec (.ldMemVx 3) (regs [(0, 7)])) (fun t => t.mem == t.mem && t.i == 0) = true := by decide

theorem witness_MemoryReadsWhatWasWritten :
    (State.reset.write8 0xFFF 1).isSome = true ∧ State.reset.write8 0x1000 1 = none ∧
      Memory.wf (resetByte State.reset.cfg) State.reset.mem := by decide

theorem witness_CanonicalMemoriesThatReadAlikeAreEqual :
    Memory.wf (resetByte {}) [(0x200, 1), (0x300, 2)] ∧
      ∀ a, Memory.read (resetByte {}) [(0x200, 1)] a = Memory.read (resetByte {}) [(0x200, 1)] a :=
  ⟨by decide, fun _ => rfl⟩

theorem witness_StoreIsSeenByTheNextFetch :
    Memory.wf (resetByte ready.cfg) ready.mem ∧ 1 ≤ (1 : Reg).val ∧ ({ ready with i := ready.pc } : State).i = ready.pc ∧
      ({ ready with i := ready.pc } : State).ea 1 ≤ 0xFFF ∧
      gives (exec (.ldMemVx 1) { ready with i := ready.pc }) (fun _ => true) = true := by decide

theorem witness_DrwXorsTheSprite :
    ((1 : Nibble).val > 0 ∧ (State.ea { State.reset with i := 0x1000 } 1) - 1 > 0xFFF) ∧
      (State.ea { State.reset with i := 0xFFF } 1) - 1 ≤ 0xFFF ∧ (0 : Nibble).val = 0 := by decide

/-- A sprite bit that lands on a pixel that is on, and one that lands on a pixel that is off. -/
theorem witness_SpriteBit :
    SpriteBit (at300 [0x81] [(0, 60)]) 0 1 1 60 0 ∧ SpriteBit (at300 [0x81] [(0, 60)]) 0 1 1 3 0 ∧
      (lit (at300 [0x81] [(0, 60)]) 60 0).fb.pixel 60 0 = true ∧
      (lit (at300 [0x81] [(0, 60)]) 60 0).fb.pixel 3 0 = false :=
  ⟨⟨0, 0, by decide⟩, ⟨0, 7, by decide⟩, by decide, by decide⟩

theorem witness_DrawingTwiceRestoresTheFramebuffer :
    (at300 [0x80] []).ea 1 - 1 ≤ 0xFFF ∧
      gives (exec (.drw 0 1 1) (at300 [0x80] [])) (fun t => t.V 0 == (at300 [0x80] []).V 0 && t.V 1 == 0) = true := by
  decide

theorem witness_DrawingAnEmptySprite : ∀ px py, ¬ SpriteBit State.reset 0 0 0 px py := by
  rintro px py ⟨r, c, h, -⟩; exact absurd h (Nat.not_lt_zero r)

theorem witness_KeySkips :
    ((regs [(1, 16)]).V 1).toNat > 15 ∧ ((regs [(1, 15)]).V 1).toNat = (15 : Fin 16).val := by decide

theorem witness_WaitForKey : waiting.run = .suspended 3 ∧ waiting.pressed 7 = false := by decide

theorem witness_TickCountsBothTimersDown :
    (holding 2 []).started = true ∧ (holding 2 []).run ≠ .halted ∧ waiting.run ≠ .halted ∧
      emptyFault.started = true ∧ emptyFault.run = .halted := by decide

theorem witness_KeyEvent :
    waiting.started = true ∧ waiting.run = .suspended 3 ∧ waiting.pressed 7 = false ∧ waiting.pressed 2 = true ∧
      ∀ x, (holding 2 []).run ≠ .suspended x := by decide

theorem witness_StepTakesTheNextEvent :
    ready.env = [] ∧ (State.reset.withProgram [0x12, 0x00]).env = .load [0x12, 0x00] 0x200 :: [] := by decide

theorem witness_LoadCopiesTheImage :
    State.reset.started = false ∧ State.reset.run ≠ .halted ∧ 0xFFE + [(1 : Byte), 2].length ≤ 4096 ∧
      0xFFF + [(1 : Byte), 2].length > 4096 := by decide

theorem witness_OutputsReadTheState : (holding 2 []).started = true ∧ (holding 2 []).run ≠ .halted := by decide

end Sys2Proof.Tests
end

section
/-! SUPPORT. The two statements of 00_scope.md: the strict switch (R7, R99) and the invariant at reset (R290). -/

namespace Sys2Proof

/-! ### Which decoded instructions `STRICT_5XY0` concerns -/

section Groups

variable {c : Config} {w : Word} {i : Instr}

/-- No row of group 0x0 is one the switch takes away. -/
theorem wf_of_decodeGroup0 (h : decodeGroup0 w = .ok i) : i.wf c = true := by
  unfold decodeGroup0 at h
  split at h <;> cases h <;> rfl

/-- No row of group 0x8 is one the switch takes away. -/
theorem wf_of_decodeGroup8 (h : decodeGroup8 w = .ok i) : i.wf c = true := by
  unfold decodeGroup8 at h
  split at h <;> cases h <;> rfl

/-- No row of group 0xE is one the switch takes away. -/
theorem wf_of_decodeGroupE (h : decodeGroupE w = .ok i) : i.wf c = true := by
  unfold decodeGroupE at h
  split at h <;> cases h <;> rfl

/-- No row of group 0xF is one the switch takes away. -/
theorem wf_of_decodeGroupF (h : decodeGroupF w = .ok i) : i.wf c = true := by
  unfold decodeGroupF at h
  split at h <;> cases h <;> rfl

/-- Group 0x5 is the single row 5xyn (R99). -/
theorem decode_of_op_five (h : bits w 15 12 = 5) :
    decode w = .ok (.seReg (fieldX w) (fieldY w) (fieldN w)) := by
  simp only [decode, fieldOp, h]

/-- Group 0x9 is the single row 9xyn (R99). -/
theorem decode_of_op_nine (h : bits w 15 12 = 9) :
    decode w = .ok (.sneReg (fieldX w) (fieldY w) (fieldN w)) := by
  simp only [decode, fieldOp, h]

/-- Outside the groups 0x5 and 0x9 every decoded instruction exists on every machine. -/
theorem wf_of_decode_of_op_ne (h5 : bits w 15 12 ≠ 5) (h9 : bits w 15 12 ≠ 9) (h : decode w = .ok i) :
    i.wf c = true := by
  unfold decode fieldOp at h
  split at h
  case h_1 => exact wf_of_decodeGroup0 h
  case h_6 => contradiction
  case h_9 => exact wf_of_decodeGroup8 h
  case h_10 => contradiction
  case h_15 => exact wf_of_decodeGroupE h
  case h_16 => exact wf_of_decodeGroupF h
  case h_17 => contradiction
  all_goals (cases h; rfl)

/-- The field `n` is 0 exactly when bits 3..0 are. -/
theorem fieldN_eq_zero_iff : fieldN w = 0 ↔ bits w 3 0 = 0 := by
  simp only [fieldN, bits, Fin.ext_iff, Fin.ofNat]
  omega

/-- The words of the groups 0x5 and 0x9 decode, to an instruction that exists where the switch is off or n is 0. -/
theorem decode_of_op_five_or_nine (c : Config) (h : bits w 15 12 = 5 ∨ bits w 15 12 = 9) :
    ∃ i, decode w = .ok i ∧ (i.wf c = true ↔ c.strict5xy0 = false ∨ bits w 3 0 = 0) := by
  rcases h with h | h
  · exact ⟨_, decode_of_op_five h, by simp [Instr.wf, fieldN_eq_zero_iff]⟩
  · exact ⟨_, decode_of_op_nine h, by simp [Instr.wf, fieldN_eq_zero_iff]⟩

/-! ### What dispatch makes of a decoded word -/

/-- A decoded instruction the machine has is dispatched (40_engine_cycle.md R124). -/
theorem dispatch_of_wf (hw : ∀ i, decode w = .ok i → i.wf c = true) : dispatch c w = decode w := by
  cases hd : decode w with
  | ok i => exact dispatch_eq_ok.2 ⟨hd, hw i hd⟩
  | error e => simp only [dispatch, hd]

/-- A decoded instruction the machine does not have is an unknown opcode (R124, D29). -/
theorem dispatch_of_not_wf (hd : decode w = .ok i) (hw : i.wf c ≠ true) :
    dispatch c w = .error (.unknownOpcode w) := by
  simp only [dispatch, hd, hw, Bool.false_eq_true, ↓reduceIte]

end Groups

/-- Settles O5: outside the groups 0x5 and 0x9 the switch is never read, and in them it decides by `n` alone. -/
theorem strictSwitchRemovesExactly5xynAnd9xyn : Obligations.StrictSwitchRemovesExactly5xynAnd9xyn := by
  intro c w
  constructor
  · rintro ⟨hs, hop, hn⟩
    obtain ⟨i, hd, hwf⟩ := decode_of_op_five_or_nine c hop
    exact dispatch_of_not_wf hd (by simp [hwf, hs, hn])
  · intro hkeep
    by_cases hop : bits w 15 12 = 5 ∨ bits w 15 12 = 9
    · obtain ⟨i, hd, hwf⟩ := decode_of_op_five_or_nine c hop
      have hkept : c.strict5xy0 = false ∨ bits w 3 0 = 0 :=
        hkeep.imp_right (Or.resolve_left · fun hne => hop.elim hne.1 hne.2)
      rw [hd]
      exact dispatch_eq_ok.2 ⟨hd, hwf.2 hkept⟩
    · obtain ⟨h5, h9⟩ := not_or.1 hop
      exact dispatch_of_wf fun i => wf_of_decode_of_op_ne h5 h9

end Sys2Proof

namespace Sys2Proof.Machine

/-- Every slot of the call stack holds 0 after reset (R290). -/
theorem State.resetWith_stack (c : Config) (d : Fin 16) : (State.resetWith c).stack[d.val] = 0 :=
  Vector.getElem_replicate d.isLt

/-- Settles O17: memory lists no cell, pc is 0x200, every slot is 0, and no fault is recorded. -/
theorem resetSatisfiesTheInvariant : Obligations.ResetSatisfiesTheInvariant := by
  intro c hc
  exact {
    cfg_wf := hc
    mem_wf := Memory.nil_wf
    pc_le := by simp [State.resetWith, progStart]
    stack_le := fun d => by simp [State.resetWith_stack]
    halted_iff := by simp [State.resetWith]
    fault_pc := by simp [State.resetWith]
    fault_word := by simp [State.resetWith] }

end Sys2Proof.Machine
end

section
/-! SUPPORT. The canonical form of memory is unique (10_state.md R32). -/

namespace Sys2Proof.Machine

variable {base : Nat → Byte}

/-- A canonical memory with a first cell: that cell is in bounds and not as at reset, the others lie above it. -/
theorem Memory.wf_cons {b : Nat} {w : Byte} {m : Memory} :
    Memory.wf base ((b, w) :: m) ↔
      (b < memSize ∧ w ≠ base b) ∧ (∀ c ∈ m, b < c.1) ∧ m.wf base := by
  simp only [Memory.wf, List.pairwise_cons, List.forall_mem_cons]
  tauto

/-- The first cell is what its address reads as. -/
@[simp] theorem Memory.read_head (b : Nat) (w : Byte) (m : Memory) : Memory.read base ((b, w) :: m) b = w :=
  if_pos rfl

/-- Of two canonical memories that read alike neither starts below the other. -/
theorem Memory.not_lt_of_read_eq {b b' : Nat} {w w' : Byte} {m m' : Memory}
    (hm : Memory.wf base ((b, w) :: m)) (hm' : Memory.wf base ((b', w') :: m'))
    (h : ∀ a, Memory.read base ((b, w) :: m) a = Memory.read base ((b', w') :: m') a) : ¬ b < b' := by
  intro hlt
  obtain ⟨⟨-, hw⟩, -, -⟩ := Memory.wf_cons.1 hm
  obtain ⟨-, habove, -⟩ := Memory.wf_cons.1 hm'
  have hunlisted : Memory.read base ((b', w') :: m') b = base b :=
    Memory.read_of_lt _ (List.forall_mem_cons.2 ⟨hlt, fun c hc => hlt.trans (habove c hc)⟩)
  exact hw (by rw [← Memory.read_head (base := base) b w m, h b, hunlisted])

/-- Canonical memories with the same first address that read alike have the same first byte, and their rests read
alike. -/
theorem Memory.read_tail_eq {b : Nat} {w w' : Byte} {m m' : Memory}
    (hm : Memory.wf base ((b, w) :: m)) (hm' : Memory.wf base ((b, w') :: m'))
    (h : ∀ a, Memory.read base ((b, w) :: m) a = Memory.read base ((b, w') :: m') a) :
    w = w' ∧ ∀ a, m.read base a = m'.read base a := by
  obtain ⟨-, habove, -⟩ := Memory.wf_cons.1 hm
  obtain ⟨-, habove', -⟩ := Memory.wf_cons.1 hm'
  refine ⟨by simpa using h b, fun a => ?_⟩
  by_cases hab : a = b
  · rw [hab, Memory.read_of_lt m habove, Memory.read_of_lt m' habove']
  · simpa [Memory.read, hab] using h a

/-- The empty memory reads unlike every canonical memory that lists a cell. -/
theorem Memory.read_cons_ne_base {b : Nat} {w : Byte} {m : Memory} (hm : Memory.wf base ((b, w) :: m)) :
    Memory.read base ((b, w) :: m) b ≠ base b := by
  obtain ⟨⟨-, hw⟩, -, -⟩ := Memory.wf_cons.1 hm
  simpa using hw

/-- Settles O39, by induction on the first list: two canonical lists that read alike start at the same address. -/
theorem canonicalMemoriesThatReadAlikeAreEqual : Obligations.CanonicalMemoriesThatReadAlikeAreEqual := by
  intro base m
  induction m with
  | nil =>
    intro m' _ hm' h
    cases m' with
    | nil => rfl
    | cons c m' => exact absurd (h c.1).symm (Memory.read_cons_ne_base hm')
  | cons c m ih =>
    intro m' hm hm' h
    cases m' with
    | nil => exact absurd (h c.1) (Memory.read_cons_ne_base hm)
    | cons c' m' =>
      obtain ⟨b, w⟩ := c
      obtain ⟨b', w'⟩ := c'
      obtain rfl : b = b' := Nat.le_antisymm
        (Nat.le_of_not_lt (Memory.not_lt_of_read_eq hm' hm fun a => (h a).symm))
        (Nat.le_of_not_lt (Memory.not_lt_of_read_eq hm hm' h))
      obtain ⟨rfl, htail⟩ := Memory.read_tail_eq hm hm' h
      rw [ih m' (Memory.wf_cons.1 hm).2.2 (Memory.wf_cons.1 hm').2.2 htail]

end Sys2Proof.Machine
end

section
/-! SUPPORT. RET after CALL (41_control_flow.md R140, R142): the call stack is last in, first out. -/

namespace Sys2Proof.Machine

variable {s t u : State}

/-- A CALL that does not overflow pushes the advanced pc (R142). -/
theorem execCall_push {nnn : Addr12} (hsp : s.sp.val < 16) (h : exec (.call nnn) s = .next t) :
    ∃ p, s.push s.pc = some p ∧ t = { p with pc := zextAddr nnn } := by
  obtain ⟨p, hp⟩ := Option.isSome_iff_exists.1 ((State.push_isSome s s.pc).2 hsp)
  simp only [exec, execCall, hp, Host.Outcome.next.injEq] at h
  exact ⟨p, hp, h.symm⟩

/-- A RET that does not underflow jumps to the address popped (R140). -/
theorem exec_ret_of_pos (hsp : 0 < u.sp.val) :
    ∃ r p, u.pop = some (r, p) ∧ exec .ret u = .next { p with pc := r } := by
  obtain ⟨⟨r, p⟩, hp⟩ := Option.isSome_iff_exists.1 ((State.pop_isSome u).2 hsp)
  exact ⟨r, p, hp, by simp only [exec, execRet, hp]⟩

/-- A pop from a stack as a push left it gives the address pushed, the depth before, and every slot below. -/
theorem State.pop_of_push {p q : State} {a r : Word} (hpush : s.push a = some p) (hsp : u.sp = p.sp)
    (hstack : u.stack = p.stack) (hpop : u.pop = some (r, q)) :
    r = a ∧ q.sp = s.sp ∧ ∀ d : Fin 16, d.val < s.sp.val → q.stack[d.val] = s.stack[d.val] := by
  obtain ⟨hlt, -, hpsp, hslot⟩ := State.push_spec hpush
  obtain ⟨_, hq, hqsp, hr⟩ := State.pop_spec hpop
  have hqstack : q.stack = p.stack := (congrArg State.stack hq).trans hstack
  have htop : u.sp.val - 1 = s.sp.val := by rw [hsp, hpsp, Nat.add_sub_cancel]
  refine ⟨?_, Fin.ext (hqsp.trans htop), fun d hd => ?_⟩
  · simp only [hr, htop, hstack, hslot _ hlt, if_pos]
  · simp only [hqstack, hslot d.val d.isLt, if_neg hd.ne]

/-- Settles O23: the RET pops what the CALL pushed. -/
theorem retUndoesCall : Obligations.RetUndoesCall := by
  intro nnn s t u hsp hcall husp hustack
  obtain ⟨p, hpush, rfl⟩ := execCall_push hsp hcall
  obtain ⟨-, -, hpsp, -⟩ := State.push_spec hpush
  have hpos : 0 < u.sp.val := by rw [husp, hpsp]; exact Nat.succ_pos _
  obtain ⟨r, q, hpop, hret⟩ := exec_ret_of_pos hpos
  obtain ⟨hr, hsp', hslots⟩ := State.pop_of_push hpush husp hustack hpop
  exact ⟨_, hret, hr, hsp', hslots⟩

end Sys2Proof.Machine
end

section
/-! SUPPORT. What the execute part of an instruction can do, said once, by the parts it writes; the proofs about
frames and invariants split on it instead of unfolding `exec`. -/

namespace Sys2Proof.Machine

/-- `x` is the register `i` writes as its destination, with no flag beside it (42_alu.md R160 to R165, R171;
45_timers_input.md R232). -/
def LoadsReg (x : Reg) (i : Instr) : Prop :=
  (∃ nn, i = .ldImm x nn ∨ i = .addImm x nn ∨ i = .rnd x nn) ∨
  (∃ y, i = .ldReg x y ∨ i = .orReg x y ∨ i = .andReg x y ∨ i = .xorReg x y) ∨ i = .ldVxDT x

/-- `x` is the register `i` writes as its destination, with the flag in VF beside it (42_alu.md R166 to R170). -/
def FlagsReg (x : Reg) (i : Instr) : Prop :=
  ∃ y, i = .addReg x y ∨ i = .subReg x y ∨ i = .shr x y ∨ i = .subnReg x y ∨ i = .shl x y

/-- `i` is a skip (41_control_flow.md R143 to R146; 45_timers_input.md R230, R231). -/
def Skips (i : Instr) : Prop :=
  (∃ x nn, i = .seImm x nn ∨ i = .sneImm x nn) ∨ (∃ x y n, i = .seReg x y n ∨ i = .sneReg x y n) ∨
  ∃ x, i = .skp x ∨ i = .sknp x

/-- `Effect i s t`: from `s`, the state after the advance, the execute part of `i` may end in `t`. One constructor per
way an instruction writes the state. -/
inductive Effect (i : Instr) (s : State) : State → Prop
  | fault {k : FaultKind} (hk : execFault s i = some k) :
      Effect i s { s with pc := s.pc - 2, run := .halted, fault := some ⟨k, s.pc - 2, some (encode i)⟩ }
  | load {x : Reg} (hi : LoadsReg x i) (b : Byte) : Effect i s (s.setV x b)
  | flagged {x : Reg} (hi : FlagsReg x i) (r : Byte) (c : Bool) : Effect i s (s.setVWithFlag x r c)
  | random {x : Reg} {nn : Byte} (hi : i = .rnd x nn) (b : Byte) : Effect i s ((draw s).2.setV x b)
  | loadMany {x : Reg} (hi : i = .ldVxMem x) {v : Vector Byte 16}
      (hv : ∀ y : Reg, x < y → v[y.val] = s.v[y.val]) : Effect i s { s with v := v }
  | index (hi : (∃ nnn, i = .ldI nnn) ∨ ∃ x, i = .addI x ∨ i = .ldF x) (a : Word) : Effect i s { s with i := a }
  | indexFlag {x : Reg} (hi : i = .addI x) (hc : s.cfg.addISetsVF = true) (c : Bool) (a : Word) :
      Effect i s { s.setVF c with i := a }
  | store (hi : ∃ x, i = .ldB x ∨ i = .ldMemVx x) {m : Memory}
      (hm : s.mem.wf (resetByte s.cfg) → m.wf (resetByte s.cfg)) : Effect i s { s with mem := m }
  | clear (hi : i = .cls) (fb : Framebuffer) : Effect i s { s with fb := fb }
  | draw {x y : Reg} {n : Nibble} (hi : i = .drw x y n) (fb : Framebuffer) (c : Bool) :
      Effect i s (State.setVF { s with fb := fb } c)
  | jump (hi : ∃ nnn, i = .jp nnn ∨ i = .jpV0 nnn) {a : Word} (ha : a.toNat ≤ 0x10FE) :
      Effect i s { s with pc := a }
  | skip (hi : Skips i) {a : Word} (ha : a = s.pc ∨ a = s.pc + 2) : Effect i s { s with pc := a }
  | call {nnn : Addr12} (hi : i = .call nnn) {stack : Vector Word 16} (sp : Fin 17)
      (hstack : ∀ d : Fin 16, stack[d.val] = s.pc ∨ stack[d.val] = s.stack[d.val]) :
      Effect i s { s with pc := zextAddr nnn, sp := sp, stack := stack }
  | ret (hi : i = .ret) (d : Fin 16) (sp : Fin 17) : Effect i s { s with pc := s.stack[d.val], sp := sp }
  | waitKey {x : Reg} (hi : i = .ldVxK x) : Effect i s { s with run := .suspended x }
  | delayTimer {x : Reg} (hi : i = .ldDTVx x) (b : Byte) : Effect i s { s with dt := b }
  | soundTimer {x : Reg} (hi : i = .ldSTVx x) (b : Byte) : Effect i s { s with st := b }

variable {i : Instr} {s t : State}

/-! ### Where an accessor answers nothing: the conditions of 60_exceptions.md R250 as the operations meet them -/

/-- A pop answers nothing exactly on the empty stack (41_control_flow.md R140). -/
theorem State.pop_eq_none : s.pop = none ↔ s.sp.val = 0 := by
  rw [← Option.not_isSome_iff_eq_none, State.pop_isSome]
  omega

/-- A push answers nothing exactly on the full stack (R142). -/
theorem State.push_eq_none {r : Word} : s.push r = none ↔ s.sp.val = 16 := by
  have := s.sp.isLt
  rw [← Option.not_isSome_iff_eq_none, State.push_isSome]
  omega

/-- A sprite or register read answers nothing exactly where its last address is past the memory (20_memory.md R63). -/
theorem State.readBytes_eq_none {a n : Nat} : s.readBytes a n = none ↔ n > 0 ∧ a + n - 1 > 0xFFF := by
  rw [State.readBytes_eq]
  simp only [memSize]
  split <;> simp only [reduceCtorEq, false_iff, true_iff] <;> omega

/-- A store answers nothing exactly where its last address is past the memory (R68). -/
theorem State.writeBytes_eq_none {a : Nat} {bs : List Byte} :
    s.writeBytes a bs = none ↔ bs.length > 0 ∧ a + bs.length - 1 > 0xFFF := by
  rw [← Option.not_isSome_iff_eq_none, State.writeBytes_isSome]
  simp only [memSize]
  omega

/-- There is no glyph exactly above digit 15 (43_index_memory.md R192). -/
theorem glyphAddress_eq_none {c : Config} {d : Byte} : glyphAddress c d = none ↔ d.toNat > 15 := by
  unfold glyphAddress
  split <;> simp only [reduceCtorEq, false_iff, true_iff] <;> omega

/-- The BCD digits are three bytes (R193). -/
@[simp] theorem bcdDigits_length (b : Byte) : (bcdDigits b).length = 3 := rfl

/-- A read that answers gives as many bytes as asked for. -/
theorem State.readBytes_length {a n : Nat} {bs : List Byte} (h : s.readBytes a n = some bs) : bs.length = n := by
  rw [State.readBytes_eq] at h
  split at h
  · cases h; simp
  · cases h

/-! ### What the shared operations contribute -/

/-- A fault the instruction raises is one of its effects. -/
theorem Effect.of_raise {k : FaultKind} (hk : execFault s i = some k) (h : raise k i s = .next t) : Effect i s t := by
  rw [raise_next h]
  exact .fault hk

/-- A skip, taken or not, is one of the effects of a skip instruction. -/
theorem Effect.of_skipIf {c : Bool} (hi : Skips i) (h : skipIf c s = .next t) : Effect i s t := by
  obtain ⟨-, rfl⟩ | ⟨-, rfl⟩ := skipIf_next h
  · exact .skip hi (.inl rfl)
  · exact .skip hi (.inr rfl)

/-- A store that answers keeps the canonical form and writes memory alone. -/
theorem Effect.of_writeBytes {a : Nat} {bs : List Byte} (hi : ∃ x, i = .ldB x ∨ i = .ldMemVx x)
    (h : s.writeBytes a bs = some t) : Effect i s t := by
  obtain ⟨ht, -, hwf⟩ := State.writeBytes_spec bs h
  have hcfg : t.cfg = s.cfg := by rw [ht]
  rw [ht]
  exact .store hi fun hm => hcfg ▸ (hwf hm).2

/-! ### The instructions that can fault -/

theorem execRet_effect (h : execRet s = .next t) : Effect .ret s t := by
  unfold execRet at h
  split at h
  next r u hpop =>
    obtain ⟨hpos, hu, -, hr⟩ := State.pop_spec hpop
    cases h
    rw [hu, hr]
    exact .ret rfl ⟨s.sp.val - 1, by omega⟩ u.sp
  next hpop => exact .of_raise (if_pos (State.pop_eq_none.1 hpop)) h

theorem execCall_effect {nnn : Addr12} (h : execCall nnn s = .next t) : Effect (.call nnn) s t := by
  unfold execCall at h
  split at h
  next u hpush =>
    obtain ⟨-, hu, -, hslot⟩ := State.push_spec hpush
    cases h
    rw [hu]
    refine .call rfl u.sp fun d => ?_
    rw [hslot d.val d.isLt]
    split
    · exact .inl rfl
    · exact .inr rfl
  next hpush => exact .of_raise (if_pos (State.push_eq_none.1 hpush)) h

theorem execDrw_effect {x y : Reg} {n : Nibble} (h : execDrw x y n s = .next t) : Effect (.drw x y n) s t := by
  unfold execDrw at h
  split at h
  next => cases h; exact .draw rfl _ _
  next hread => exact .of_raise (if_pos (State.readBytes_eq_none.1 hread)) h

theorem execSkp_effect {x : Reg} (h : execSkp x s = .next t) : Effect (.skp x) s t := by
  unfold execSkp at h
  split at h
  next => exact .of_skipIf (by simp [Skips]) h
  next hkey => exact .of_raise (if_pos (keyIndex_eq_none.1 hkey)) h

theorem execSknp_effect {x : Reg} (h : execSknp x s = .next t) : Effect (.sknp x) s t := by
  unfold execSknp at h
  split at h
  next => exact .of_skipIf (by simp [Skips]) h
  next hkey => exact .of_raise (if_pos (keyIndex_eq_none.1 hkey)) h

theorem execAddI_effect {x : Reg} (h : execAddI x s = .next t) : Effect (.addI x) s t := by
  cases h
  split
  next hc => exact .indexFlag rfl hc _ _
  next => exact .index (by simp) _

theorem execLdF_effect {x : Reg} (h : execLdF x s = .next t) : Effect (.ldF x) s t := by
  unfold execLdF at h
  split at h
  next => cases h; exact .index (by simp) _
  next hglyph => exact .of_raise (if_pos (glyphAddress_eq_none.1 hglyph)) h

theorem execLdB_effect {x : Reg} (h : execLdB x s = .next t) : Effect (.ldB x) s t := by
  unfold execLdB at h
  split at h
  next hwrite => cases h; exact .of_writeBytes (by simp) hwrite
  next hwrite => exact .of_raise (if_pos (State.writeBytes_eq_none.1 hwrite).2) h

theorem execLdMemVx_effect {x : Reg} (h : execLdMemVx x s = .next t) : Effect (.ldMemVx x) s t := by
  unfold execLdMemVx at h
  split at h
  next hwrite => cases h; exact .of_writeBytes (by simp) hwrite
  next hwrite =>
    have hpast := (State.writeBytes_eq_none.1 hwrite).2
    rw [State.regsUpTo_length] at hpast
    exact .of_raise (if_pos hpast) h

theorem execLdVxMem_effect {x : Reg} (h : execLdVxMem x s = .next t) : Effect (.ldVxMem x) s t := by
  unfold execLdVxMem at h
  split at h
  next bs hread =>
    cases h
    refine .loadMany rfl fun y hy => ?_
    have hpast : ¬ (0 ≤ y.val ∧ y.val < 0 + bs.length) := by
      have : x.val < y.val := hy
      rw [State.readBytes_length hread]
      omega
    rw [loadRegs_getElem, dif_neg hpast]
  next hread => exact .of_raise (if_pos (State.readBytes_eq_none.1 hread).2) h

/-- Every execute part that answers does so by one of the effects (40_engine_cycle.md R125). -/
theorem exec_effect (h : exec i s = .next t) : Effect i s t := by
  cases i with
  | cls => cases h; exact .clear rfl _
  | ret => exact execRet_effect h
  | jp nnn => cases h; exact .jump (by simp) (by have := nnn.isLt; rw [zextAddr_toNat]; omega)
  | call nnn => exact execCall_effect h
  | seImm x nn => exact .of_skipIf (by simp [Skips]) h
  | sneImm x nn => exact .of_skipIf (by simp [Skips]) h
  | seReg x y n => exact .of_skipIf (by simp [Skips]) h
  | sneReg x y n => exact .of_skipIf (by simp [Skips]) h
  | ldImm x nn => cases h; exact .load (by simp [LoadsReg]) _
  | addImm x nn => cases h; exact .load (by simp [LoadsReg]) _
  | ldReg x y => cases h; exact .load (by simp [LoadsReg]) _
  | orReg x y => cases h; exact .load (by simp [LoadsReg]) _
  | andReg x y => cases h; exact .load (by simp [LoadsReg]) _
  | xorReg x y => cases h; exact .load (by simp [LoadsReg]) _
  | addReg x y => cases h; exact .flagged (by simp [FlagsReg]) _ _
  | subReg x y => cases h; exact .flagged (by simp [FlagsReg]) _ _
  | shr x y => cases h; exact .flagged (by simp [FlagsReg]) _ _
  | subnReg x y => cases h; exact .flagged (by simp [FlagsReg]) _ _
  | shl x y => cases h; exact .flagged (by simp [FlagsReg]) _ _
  | ldI nnn => cases h; exact .index (by simp) _
  | jpV0 nnn =>
    cases h
    refine .jump (by simp) ?_
    rw [offsetTarget_toNat]
    have := nnn.isLt
    have := (s.V 0).isLt
    omega
  | rnd x nn => cases h; exact .random rfl _
  | drw x y n => exact execDrw_effect h
  | skp x => exact execSkp_effect h
  | sknp x => exact execSknp_effect h
  | ldVxDT x => cases h; exact .load (by simp [LoadsReg]) _
  | ldVxK x => cases h; exact .waitKey rfl
  | ldDTVx x => cases h; exact .delayTimer rfl _
  | ldSTVx x => cases h; exact .soundTimer rfl _
  | addI x => exact execAddI_effect h
  | ldF x => exact execLdF_effect h
  | ldB x => exact execLdB_effect h
  | ldMemVx x => exact execLdMemVx_effect h
  | ldVxMem x => exact execLdVxMem_effect h

end Sys2Proof.Machine
end

section
/-! SUPPORT. Which instruction can change which part of the state (10_state.md R21 to R36): one lemma per part, each
by the effects that write it. -/

namespace Sys2Proof.Machine

variable {i : Instr} {s t : State}

/-- The ways an instruction writes VF without naming it as its destination (10_state.md R21). -/
def SetsFlag (s : State) (i : Instr) : Prop :=
  (∃ x, FlagsReg x i) ∨ (∃ x y n, i = .drw x y n) ∨ (s.cfg.addISetsVF = true ∧ ∃ x, i = .addI x)

/-- A write to one register changes no other. -/
theorem State.eq_of_setV_V_ne {x y : Reg} {b : Byte} (h : (s.setV x b).V y ≠ s.V y) : y = x := by
  by_contra hne
  exact h (by rw [State.setV_V, if_neg hne])

/-- A flag write changes VF alone. -/
theorem State.eq_of_setVF_V_ne {y : Reg} {c : Bool} (h : (s.setVF c).V y ≠ s.V y) : y = vf :=
  State.eq_of_setV_V_ne h

/-- A result and its flag change the destination and VF alone. -/
theorem State.eq_or_eq_of_setVWithFlag_V_ne {x y : Reg} {r : Byte} {c : Bool}
    (h : (s.setVWithFlag x r c).V y ≠ s.V y) : y = x ∨ y = vf := by
  by_contra hne
  obtain ⟨hx, hf⟩ := not_or.1 hne
  exact h (by simp [State.setVWithFlag_V, hx, hf])

/-- A register is changed by an instruction that names it, or it is VF and the instruction sets the flag. -/
theorem exec_changes_V (h : exec i s = .next t) {y : Reg} (hne : t.V y ≠ s.V y) :
    LoadsReg y i ∨ FlagsReg y i ∨ (∃ z, y ≤ z ∧ i = .ldVxMem z) ∨ (y = vf ∧ SetsFlag s i) := by
  cases exec_effect h with
  | load hi b => exact .inl (State.eq_of_setV_V_ne hne ▸ hi)
  | flagged hi r c =>
    obtain rfl | rfl := State.eq_or_eq_of_setVWithFlag_V_ne hne
    · exact .inr (.inl hi)
    · exact .inr (.inr (.inr ⟨rfl, .inl ⟨_, hi⟩⟩))
  | random hi b =>
    obtain rfl := State.eq_of_setV_V_ne (s := (draw s).2) hne
    exact .inl (.inl ⟨_, .inr (.inr hi)⟩)
  | loadMany hi hv =>
    exact .inr (.inr (.inl ⟨_, le_of_not_gt fun hlt => hne (hv y hlt), hi⟩))
  | indexFlag hi hc c a => exact .inr (.inr (.inr ⟨State.eq_of_setVF_V_ne hne, .inr (.inr ⟨hc, _, hi⟩)⟩))
  | draw hi fb c =>
    exact .inr (.inr (.inr ⟨State.eq_of_setVF_V_ne (s := { s with fb := fb }) hne, .inr (.inl ⟨_, _, _, hi⟩)⟩))
  | _ => exact absurd rfl hne

/-- I is written by LD I, ADD I and LD F (R23). -/
theorem exec_changes_i (h : exec i s = .next t) (hne : t.i ≠ s.i) :
    (∃ nnn, i = .ldI nnn) ∨ ∃ x, i = .addI x ∨ i = .ldF x := by
  cases exec_effect h with
  | index hi a => exact hi
  | indexFlag hi => exact .inr ⟨_, .inl hi⟩
  | _ => simp at hne

/-- The framebuffer is written by CLS and DRW (R34). -/
theorem exec_changes_fb (h : exec i s = .next t) (hne : t.fb ≠ s.fb) : i = .cls ∨ ∃ x y n, i = .drw x y n := by
  cases exec_effect h with
  | clear hi => exact .inl hi
  | draw hi => exact .inr ⟨_, _, _, hi⟩
  | _ => simp at hne

/-- A stack slot is written by CALL (R26). -/
theorem exec_changes_stack (h : exec i s = .next t) (hne : t.stack ≠ s.stack) : ∃ nnn, i = .call nnn := by
  cases exec_effect h with
  | call hi => exact ⟨_, hi⟩
  | _ => simp at hne

/-- SP is written by CALL and RET (R26). -/
theorem exec_changes_sp (h : exec i s = .next t) (hne : t.sp ≠ s.sp) : i = .ret ∨ ∃ nnn, i = .call nnn := by
  cases exec_effect h with
  | ret hi => exact .inl hi
  | call hi => exact .inr ⟨_, hi⟩
  | _ => simp at hne

/-- Memory is written by LD B and LD [I] (20_memory.md R63). -/
theorem exec_changes_mem (h : exec i s = .next t) (hne : t.mem ≠ s.mem) : ∃ x, i = .ldB x ∨ i = .ldMemVx x := by
  cases exec_effect h with
  | store hi => exact hi
  | _ => simp at hne

/-- DT is written by LD DT (10_state.md R29). -/
theorem exec_changes_dt (h : exec i s = .next t) (hne : t.dt ≠ s.dt) : ∃ x, i = .ldDTVx x := by
  cases exec_effect h with
  | delayTimer hi => exact ⟨_, hi⟩
  | _ => simp at hne

/-- ST is written by LD ST (R29). -/
theorem exec_changes_st (h : exec i s = .next t) (hne : t.st ≠ s.st) : ∃ x, i = .ldSTVx x := by
  cases exec_effect h with
  | soundTimer hi => exact ⟨_, hi⟩
  | _ => simp at hne

/-- Beside the advance, pc is written by the jumps, CALL, RET, the skips and a fault (R36, R128). -/
theorem exec_changes_pc (h : exec i s = .next t) (hne : t.pc ≠ s.pc) :
    i = .ret ∨ (∃ nnn, i = .jp nnn ∨ i = .call nnn ∨ i = .jpV0 nnn) ∨ Skips i ∨ (execFault s i).isSome = true := by
  cases exec_effect h with
  | ret hi => exact .inl hi
  | jump hi =>
    obtain ⟨nnn, hi⟩ := hi
    exact .inr (.inl ⟨nnn, hi.imp_right .inr⟩)
  | call hi => exact .inr (.inl ⟨_, .inr (.inl hi)⟩)
  | skip hi => exact .inr (.inr (.inl hi))
  | fault hk => exact .inr (.inr (.inr (Option.isSome_of_eq_some hk)))
  | _ => simp at hne

/-- RUN is written by LD Vx,K and a fault (R30, R128). -/
theorem exec_changes_run (h : exec i s = .next t) (hne : t.run ≠ s.run) :
    (∃ x, i = .ldVxK x) ∨ (execFault s i).isSome = true := by
  cases exec_effect h with
  | waitKey hi => exact .inl ⟨_, hi⟩
  | fault hk => exact .inr (Option.isSome_of_eq_some hk)
  | _ => simp at hne

/-- FAULT is written by a fault (R31, R128). -/
theorem exec_changes_fault (h : exec i s = .next t) (hne : t.fault ≠ s.fault) : (execFault s i).isSome = true := by
  cases exec_effect h with
  | fault hk => exact Option.isSome_of_eq_some hk
  | _ => simp at hne

/-- The oracle is asked by RND alone (60_exceptions.md R268). -/
theorem exec_changes_draws (h : exec i s = .next t) (hne : t.draws ≠ s.draws) : ∃ x nn, i = .rnd x nn := by
  cases exec_effect h with
  | random hi => exact ⟨_, _, hi⟩
  | _ => simp at hne

/-- No effect writes the latch (R35), the parameters, the schedule or the mark that the run has begun. -/
theorem exec_keeps_interface (h : exec i s = .next t) :
    t.key = s.key ∧ t.cfg = s.cfg ∧ t.env = s.env ∧ t.started = s.started := by
  cases exec_effect h <;> simp

/-- An instruction that changes VF sets the flag or names VF (R21). -/
theorem exec_changes_vf (h : exec i s = .next t) (hne : t.V vf ≠ s.V vf) :
    SetsFlag s i ∨ LoadsReg vf i ∨ i = .ldVxMem vf := by
  obtain hi | hi | ⟨z, hz, hi⟩ | ⟨-, hi⟩ := exec_changes_V h hne
  · exact .inr (.inl hi)
  · exact .inl (.inl ⟨_, hi⟩)
  · obtain rfl : z = vf := Fin.last_le_iff.1 hz
    exact .inr (.inr hi)
  · exact .inl hi

/-- Settles O14, part by part. -/
theorem onlyTheNamedInstructionsWrite : Obligations.OnlyTheNamedInstructionsWrite := by
  intro i s t h
  refine ⟨fun hne => ?_, exec_changes_i h, exec_changes_fb h, exec_changes_stack h, exec_changes_sp h,
    exec_changes_mem h, exec_changes_dt h, exec_changes_st h, exec_keeps_interface h⟩
  simpa only [SetsFlag, FlagsReg, LoadsReg, or_assoc] using exec_changes_vf h hne

/-- Settles O54, part by part. -/
theorem registersPcRunAndFaultChangeOnlyWhereNamed :
    Obligations.RegistersPcRunAndFaultChangeOnlyWhereNamed := by
  intro i s t h
  refine ⟨fun x hx hne => ?_, fun hne => ?_, exec_changes_run h, exec_changes_fault h, exec_changes_draws h⟩
  · obtain (himm | hreg | hdt) | hflag | hmany | ⟨hvf, -⟩ := exec_changes_V h hne
    · exact .inl himm
    · exact .inr (.inl hreg)
    · exact .inr (.inr (.inr (.inl hdt)))
    · exact .inr (.inr (.inl hflag))
    · exact .inr (.inr (.inr (.inr hmany)))
    · exact absurd hvf hx
  · simpa only [Skips, or_assoc] using exec_changes_pc h hne

end Sys2Proof.Machine
end

section
/-! SUPPORT. No instruction reads ST (10_state.md R29): every operation commutes with a change of ST alone. -/

namespace Sys2Proof.Machine

/-- The state `s` but for ST, which holds `b`. -/
def State.withST (s : State) (b : Byte) : State := { s with st := b }

variable {i : Instr} {s t : State} (b : Byte)

@[simp] theorem State.withST_V (s : State) (x : Reg) : (s.withST b).V x = s.V x := rfl

@[simp] theorem State.withST_pc (s : State) : (s.withST b).pc = s.pc := rfl

@[simp] theorem State.withST_cfg (s : State) : (s.withST b).cfg = s.cfg := rfl

@[simp] theorem State.withST_ea (s : State) (k : Nat) : (s.withST b).ea k = s.ea k := rfl

@[simp] theorem State.withST_pressed (s : State) (k : Fin 16) : (s.withST b).pressed k = s.pressed k := rfl

@[simp] theorem State.withST_regsUpTo (s : State) (x : Reg) : (s.withST b).regsUpTo x = s.regsUpTo x := rfl

@[simp] theorem State.withST_readBytes (s : State) (a n : Nat) :
    (s.withST b).readBytes a n = s.readBytes a n := by
  rw [State.readBytes_eq, State.readBytes_eq]
  rfl

@[simp] theorem State.withST_pop (s : State) :
    (s.withST b).pop = s.pop.map fun p => (p.1, p.2.withST b) := by
  unfold State.pop State.withST
  split <;> rfl

@[simp] theorem State.withST_push (s : State) (r : Word) :
    (s.withST b).push r = (s.push r).map (·.withST b) := by
  unfold State.push State.withST
  split <;> rfl

@[simp] theorem State.withST_write8 (s : State) (a : Nat) (u : Byte) :
    (s.withST b).write8 a u = (s.write8 a u).map (·.withST b) := by
  unfold State.write8
  split <;> rfl

@[simp] theorem State.withST_writeBytes (bs : List Byte) (s : State) (a : Nat) :
    (s.withST b).writeBytes a bs = (s.writeBytes a bs).map (·.withST b) := by
  induction bs generalizing s a with
  | nil => rfl
  | cons u bs ih =>
    simp only [State.writeBytes, State.withST_write8]
    cases s.write8 a u with
    | none => rfl
    | some t => exact ih t (a + 1)

@[simp] theorem State.withST_setVWithFlag (s : State) (x : Reg) (r : Byte) (c : Bool) :
    (s.withST b).setVWithFlag x r c = (s.setVWithFlag x r c).withST b := by
  unfold State.setVWithFlag State.withST
  split <;> rfl

/-! ### The outcomes of an execute part -/

/-- A fault is raised the same whatever ST holds. -/
theorem raise_withST {k : FaultKind} (h : raise k i s = .next t) : raise k i (s.withST b) = .next (t.withST b) := by
  rw [raise_next h]
  rfl

/-- A skip is taken the same whatever ST holds. -/
theorem skipIf_withST {c : Bool} (h : skipIf c s = .next t) : skipIf c (s.withST b) = .next (t.withST b) := by
  cases h
  cases c <;> rfl

theorem execRet_withST (h : execRet s = .next t) : execRet (s.withST b) = .next (t.withST b) := by
  unfold execRet at h ⊢
  rw [State.withST_pop]
  split at h
  next hpop => rw [hpop]; cases h; rfl
  next hpop => rw [hpop]; exact raise_withST b h

theorem execCall_withST {nnn : Addr12} (h : execCall nnn s = .next t) :
    execCall nnn (s.withST b) = .next (t.withST b) := by
  unfold execCall at h ⊢
  rw [State.withST_push, State.withST_pc]
  split at h
  next hpush => rw [hpush]; cases h; rfl
  next hpush => rw [hpush]; exact raise_withST b h

theorem execDrw_withST {x y : Reg} {n : Nibble} (h : execDrw x y n s = .next t) :
    execDrw x y n (s.withST b) = .next (t.withST b) := by
  unfold execDrw at h ⊢
  rw [State.withST_readBytes, State.withST_ea]
  split at h
  next => cases h; rfl
  next => exact raise_withST b h

theorem execSkp_withST {x : Reg} (h : execSkp x s = .next t) : execSkp x (s.withST b) = .next (t.withST b) := by
  unfold execSkp at h ⊢
  rw [State.withST_V]
  split at h
  next => exact skipIf_withST b h
  next => exact raise_withST b h

theorem execSknp_withST {x : Reg} (h : execSknp x s = .next t) : execSknp x (s.withST b) = .next (t.withST b) := by
  unfold execSknp at h ⊢
  rw [State.withST_V]
  split at h
  next => exact skipIf_withST b h
  next => exact raise_withST b h

theorem execAddI_withST {x : Reg} (h : execAddI x s = .next t) : execAddI x (s.withST b) = .next (t.withST b) := by
  unfold execAddI at h ⊢
  rw [State.withST_cfg]
  cases h
  split <;> rfl

theorem execLdF_withST {x : Reg} (h : execLdF x s = .next t) : execLdF x (s.withST b) = .next (t.withST b) := by
  unfold execLdF at h ⊢
  rw [State.withST_V, State.withST_cfg]
  split at h
  next => cases h; rfl
  next => exact raise_withST b h

theorem execLdB_withST {x : Reg} (h : execLdB x s = .next t) : execLdB x (s.withST b) = .next (t.withST b) := by
  unfold execLdB at h ⊢
  rw [State.withST_writeBytes, State.withST_V, State.withST_ea]
  split at h
  next hwrite => rw [hwrite]; cases h; rfl
  next hwrite => rw [hwrite]; exact raise_withST b h

theorem execLdMemVx_withST {x : Reg} (h : execLdMemVx x s = .next t) :
    execLdMemVx x (s.withST b) = .next (t.withST b) := by
  unfold execLdMemVx at h ⊢
  rw [State.withST_writeBytes, State.withST_regsUpTo, State.withST_ea]
  split at h
  next hwrite => rw [hwrite]; cases h; rfl
  next hwrite => rw [hwrite]; exact raise_withST b h

theorem execLdVxMem_withST {x : Reg} (h : execLdVxMem x s = .next t) :
    execLdVxMem x (s.withST b) = .next (t.withST b) := by
  unfold execLdVxMem at h ⊢
  rw [State.withST_readBytes, State.withST_ea]
  split at h
  next => cases h; rfl
  next => exact raise_withST b h

/-- A result and its flag are written the same whatever ST holds. -/
theorem next_setVWithFlag_withST {x : Reg} {r : Byte} {c : Bool}
    (h : (.next (s.setVWithFlag x r c) : Host.Outcome State Fault Refusal) = .next t) :
    (.next ((s.withST b).setVWithFlag x r c) : Host.Outcome State Fault Refusal) = .next (t.withST b) := by
  cases h
  rw [State.withST_setVWithFlag]

/-- Every instruction but LD ST does the same whatever ST holds, and keeps it (R29). -/
theorem exec_withST (hi : ∀ x, i ≠ .ldSTVx x) (h : exec i s = .next t) :
    exec i (s.withST b) = .next (t.withST b) := by
  cases i with
  | ret => exact execRet_withST b h
  | call nnn => exact execCall_withST b h
  | seImm x nn => exact skipIf_withST b h
  | sneImm x nn => exact skipIf_withST b h
  | seReg x y n => exact skipIf_withST b h
  | sneReg x y n => exact skipIf_withST b h
  | addReg x y => exact next_setVWithFlag_withST b h
  | subReg x y => exact next_setVWithFlag_withST b h
  | shr x y => exact next_setVWithFlag_withST b h
  | subnReg x y => exact next_setVWithFlag_withST b h
  | shl x y => exact next_setVWithFlag_withST b h
  | drw x y n => exact execDrw_withST b h
  | skp x => exact execSkp_withST b h
  | sknp x => exact execSknp_withST b h
  | addI x => exact execAddI_withST b h
  | ldF x => exact execLdF_withST b h
  | ldB x => exact execLdB_withST b h
  | ldMemVx x => exact execLdMemVx_withST b h
  | ldVxMem x => exact execLdVxMem_withST b h
  | ldSTVx x => exact absurd rfl (hi x)
  | _ => cases h; rfl

/-- LD ST writes ST the same whatever it held (45_timers_input.md R235). -/
theorem exec_ldSTVx_withST {x : Reg} (h : exec (.ldSTVx x) s = .next t) :
    exec (.ldSTVx x) (s.withST b) = .next t := by
  cases h
  rfl

/-- Settles O15: LD ST overwrites ST, every other instruction carries it along. -/
theorem noInstructionReadsTheSoundTimer : Obligations.NoInstructionReadsTheSoundTimer := by
  intro i s t b h
  by_cases hi : ∃ x, i = .ldSTVx x
  · rw [if_pos hi]
    obtain ⟨x, rfl⟩ := hi
    exact exec_ldSTVx_withST b h
  · rw [if_neg hi]
    exact exec_withST b (not_exists.1 hi) h

end Sys2Proof.Machine
end

section
/-! SUPPORT. Every step keeps the invariant (10_state.md R25, R31; 40_engine_cycle.md R121, R128): the execute parts by
their effects, then the cycle, then the events. -/

namespace Sys2Proof.Machine

variable {i : Instr} {s t : State}

/-! ### Ways to keep the invariant -/

/-- Where the engine has not stopped, no fault is recorded. -/
theorem State.Inv.fault_eq_none (hs : s.Inv) (hrun : s.run ≠ .halted) : s.fault = none := by
  rw [← Option.not_isSome_iff_eq_none, ← hs.halted_iff]
  exact hrun

/-- While no fault is recorded the invariant speaks of the parameters, memory, pc and the stack alone. -/
theorem State.Inv.of_running (hcfg : s.cfg.wf) (hmem : s.mem.wf (resetByte s.cfg)) (hpc : s.pc.toNat ≤ 0x10FE)
    (hstack : ∀ d : Fin 16, (s.stack[d.val]).toNat ≤ 4096) (hrun : s.run ≠ .halted) (hfault : s.fault = none) :
    s.Inv where
  cfg_wf := hcfg
  mem_wf := hmem
  pc_le := hpc
  stack_le := hstack
  halted_iff := by simp [hrun, hfault]
  fault_pc := by simp [hfault]
  fault_word := by simp [hfault]

/-- A change of other parts keeps the invariant. -/
theorem State.Inv.congr (hs : s.Inv) (hrun : s.run ≠ .halted) (hcfg : t.cfg = s.cfg) (hmem : t.mem = s.mem)
    (hpc : t.pc = s.pc) (hstack : t.stack = s.stack) (hrun' : t.run ≠ .halted) (hfault : t.fault = s.fault) :
    t.Inv :=
  .of_running (hcfg ▸ hs.cfg_wf) (by rw [hmem, hcfg]; exact hs.mem_wf) (hpc ▸ hs.pc_le)
    (by rw [hstack]; exact hs.stack_le) hrun' (hfault.trans (hs.fault_eq_none hrun))

/-- Writing pc keeps the invariant up to 0x10FE (R25). -/
theorem State.Inv.setPc (hs : s.Inv) (hrun : s.run ≠ .halted) {a : Word} (ha : a.toNat ≤ 0x10FE) :
    State.Inv { s with pc := a } :=
  .of_running hs.cfg_wf hs.mem_wf ha hs.stack_le hrun (hs.fault_eq_none hrun)

/-- Writing memory in canonical form keeps the invariant (R32). -/
theorem State.Inv.setMem (hs : s.Inv) (hrun : s.run ≠ .halted) {m : Memory} (hm : m.wf (resetByte s.cfg)) :
    State.Inv { s with mem := m } :=
  .of_running hs.cfg_wf hm hs.pc_le hs.stack_le hrun (hs.fault_eq_none hrun)

/-- Fault entry keeps the invariant: a word is recorded exactly where a fetch can succeed (R128). -/
theorem State.Inv.fault (hs : s.Inv) (k : FaultKind) {a : Word} {w : Option Word} (ha : a.toNat ≤ 0x10FE)
    (hw : w = none ↔ a.toNat > 0xFFE) : State.Inv { s with pc := a, run := .halted, fault := some ⟨k, a, w⟩ } where
  cfg_wf := hs.cfg_wf
  mem_wf := hs.mem_wf
  pc_le := ha
  stack_le := hs.stack_le
  halted_iff := by simp
  fault_pc := by rintro _ ⟨⟩; rfl
  fault_word := by rintro _ ⟨⟩; exact hw

/-! ### The execute part -/

/-- Every execute part keeps the invariant, in a state the advance can lead to: pc is 2 past an address a fetch
succeeds at. -/
theorem exec_inv (hs : s.Inv) (hrun : s.run = .ready) (hlo : 2 ≤ s.pc.toNat) (hhi : s.pc.toNat ≤ 0x1000)
    (h : exec i s = .next t) : t.Inv := by
  have hrun' : s.run ≠ .halted := by simp [hrun]
  cases exec_effect h with
  | fault hk =>
    have hpc : (s.pc - 2).toNat ≤ 0xFFE := by bv_omega
    exact hs.fault _ (hpc.trans (by decide)) (by simpa using hpc)
  | jump hi ha => exact hs.setPc hrun' ha
  | skip hi ha =>
    refine hs.setPc hrun' ?_
    obtain rfl | rfl := ha <;> bv_omega
  | call hi sp hslot =>
    refine .of_running hs.cfg_wf hs.mem_wf (by rw [zextAddr_toNat]; omega) (fun d => ?_) hrun'
      (hs.fault_eq_none hrun')
    obtain hd | hd := hslot d <;> rw [hd]
    · exact hhi
    · exact hs.stack_le d
  | ret hi d sp =>
    exact .of_running hs.cfg_wf hs.mem_wf ((hs.stack_le d).trans (by decide)) hs.stack_le hrun'
      (hs.fault_eq_none hrun')
  | store hi hm => exact hs.setMem hrun' (hm hs.mem_wf)
  | _ => -- the other effects leave every part the invariant speaks of
    apply hs.congr hrun' <;> simp [hrun]

/-- Every cycle of the ready engine keeps the invariant (R120). -/
theorem cycle_inv (hs : s.Inv) (hrun : s.run = .ready) (h : cycle s = .next t) : t.Inv := by
  obtain ⟨hpc, hc⟩ | ⟨w, hpc, -, ⟨e, -, hc⟩ | ⟨i, -, hc⟩⟩ := cycle_cases s <;> rw [hc] at h
  · cases h
    exact hs.fault _ hs.pc_le (by simpa using hpc)
  · cases h
    exact hs.fault _ hs.pc_le (by simpa using hpc)
  · have hadv : (advance s).pc.toNat = s.pc.toNat + 2 := by rw [advance_pc]; bv_omega
    have hinv : (advance s).Inv := hs.setPc (by simp [hrun]) (by bv_omega)
    exact exec_inv hinv hrun (by omega) (by omega) h

/-! ### The events -/

/-- An engine step keeps the invariant (R121, R128). -/
theorem engineStep_inv (hs : s.Inv) (h : engineStep s = .next t) : t.Inv := by
  obtain ⟨hrun, hc⟩ := engineStep_next h
  have hrun' : s.run ≠ .halted := by simp [hrun]
  have hstarted : State.Inv { s with started := true } := hs.congr hrun' rfl rfl rfl rfl hrun' rfl
  exact cycle_inv hstarted hrun hc

/-- No key event halts the engine (60_exceptions.md R263). -/
theorem setKeyState_run_ne_halted (k : Fin 16) (p : Bool) (hrun : s.run ≠ .halted) :
    (setKeyState k p s).run ≠ .halted := by
  obtain ⟨x, -, -, -, hk⟩ | ⟨-, hk⟩ := setKeyState_cases k p s <;> rw [hk]
  · simp
  · exact hrun

/-- A load that answers keeps the invariant (20_memory.md R69). -/
theorem load_inv {bytes : List Byte} {o : Nat} (hs : s.Inv) (hrun : s.run ≠ .halted)
    (h : s.load bytes o = some t) : t.Inv := by
  obtain ⟨ht, -, hwf⟩ := State.load_spec h
  have hcfg : t.cfg = s.cfg := by rw [ht]
  rw [ht]
  exact hs.setMem hrun (hcfg ▸ (hwf hs.mem_wf).2)

/-- Every event that is taken keeps the invariant (R262, R264). -/
theorem deliver_inv {e : Event} (hs : s.Inv) (h : deliver e s = .next t) : t.Inv := by
  obtain ⟨hrun, ⟨-, hstep⟩ | ⟨-, ⟨-, rfl⟩ | ⟨-, rfl⟩ | ⟨k, p, hk, -, rfl⟩⟩ | ⟨-, bytes, o, u, -, hload, rfl⟩⟩ :=
    deliver_next h
  · exact engineStep_inv hs hstep
  · exact hs.congr hrun rfl rfl rfl rfl hrun rfl
  · exact hs
  · exact hs.congr hrun (by simp) (by simp) (by simp) (by simp) (setKeyState_run_ne_halted _ p hrun) (by simp)
  · have hu : u.Inv := load_inv hs hrun hload
    have hurun : u.run ≠ .halted := by rw [(State.load_spec hload).1]; exact hrun
    exact hu.congr hurun rfl rfl rfl rfl hurun rfl

/-- The invariant does not speak of the events to come. -/
theorem State.Inv.setEnv (hs : s.Inv) (env : List Event) : State.Inv { s with env := env } where
  cfg_wf := hs.cfg_wf
  mem_wf := hs.mem_wf
  pc_le := hs.pc_le
  stack_le := hs.stack_le
  halted_iff := hs.halted_iff
  fault_pc := hs.fault_pc
  fault_word := hs.fault_word

/-- Settles O18: the next event is the engine's step or the first of `env`, and each of them keeps the invariant. -/
theorem everyStepKeepsTheInvariant : Obligations.EveryStepKeepsTheInvariant := by
  intro s t hs h
  unfold step nextEvent at h
  split at h
  next => exact engineStep_inv hs h
  next e rest _ => exact deliver_inv (hs.setEnv rest) h

end Sys2Proof.Machine
end

section
/-! SUPPORT. Memory as the accessors, a store and the load see it (20_memory.md R62 to R69, R74): where each accessor
answers, what a write of memory leaves unchanged, and what is read back. -/

namespace Sys2Proof.Machine

variable {s t u : State}

/-! ### Where an accessor answers (R62, R65) -/

/-- `read8` answers exactly at the addresses of memory. -/
theorem State.read8_isSome {a : Nat} : (s.read8 a).isSome = true ↔ a ≤ 0xFFF := by
  rw [State.read8_eq, Option.isSome_ite]
  exact Nat.lt_succ_iff

/-- `write8` answers exactly at the addresses of memory. -/
theorem State.write8_isSome {a : Nat} {b : Byte} : (s.write8 a b).isSome = true ↔ a ≤ 0xFFF := by
  rw [State.write8, Option.isSome_ite]
  exact Nat.lt_succ_iff

/-- `read16` answers exactly where both its bytes are in memory (R64). -/
theorem State.read16_isSome {a : Nat} : (s.read16 a).isSome = true ↔ a + 1 ≤ 0xFFF := by
  rw [State.read16_eq, Option.isSome_ite]
  exact Nat.lt_succ_iff

/-! ### Frames -/

/-- A change of memory alone changes only the bytes that read differently. -/
theorem OnlyChanges.of_mem {W : Part → Prop} (ht : t = { s with mem := t.mem })
    (hmem : ∀ a, ¬ W (.mem a) → t.byte a = s.byte a) : OnlyChanges W s t := by
  intro p hp
  cases p with
  | mem a => exact hmem a hp
  | _ => rw [ht]; rfl

/-- Where the mark that the run has begun may change, setting it changes nothing more. -/
theorem OnlyChanges.setStarted {W : Part → Prop} (h : OnlyChanges W s t) (hW : W .started) (b : Bool) :
    OnlyChanges W s { t with started := b } := by
  intro p hp
  cases p with
  | started => exact absurd hW hp
  | _ => exact h _ hp

/-- Settles O38: the accessors answer in bounds, and `State.write8_spec` says what a write does. -/
theorem memoryReadsWhatWasWritten : Obligations.MemoryReadsWhatWasWritten := by
  intro s a b
  refine ⟨State.read8_isSome, State.write8_isSome, State.read16_isSome, fun t h => ?_⟩
  obtain ⟨ha, ht, hother, hback⟩ := State.write8_spec h
  refine ⟨.of_mem ht fun a' ha' => hother a' fun e => ha' (congrArg Part.mem e), fun hm => ?_⟩
  obtain ⟨hbyte, hwf⟩ := hback hm
  exact ⟨by rw [State.read8_eq, if_pos ha, hbyte], hwf⟩

/-! ### The store LD [I], Vx (43_index_memory.md R194) -/

/-- In bounds the store completes, so what it answers is what `writeBytes` answers. -/
theorem writeBytes_of_exec_ldMemVx {x : Reg} (hx : s.ea x.val ≤ 0xFFF) (h : exec (.ldMemVx x) s = .next t) :
    s.writeBytes (s.ea 0) (s.regsUpTo x) = some t := by
  have hfit : (s.writeBytes (s.ea 0) (s.regsUpTo x)).isSome = true := by
    rw [State.writeBytes_isSome, State.regsUpTo_length]
    simp only [State.ea, memSize] at hx ⊢
    omega
  obtain ⟨r, hr⟩ := Option.isSome_iff_exists.1 hfit
  simp only [exec, execLdMemVx, hr, Host.Outcome.next.injEq] at h
  rw [hr, h]

/-- In bounds the store writes memory alone, and the byte at I + k reads as Vk. -/
theorem exec_ldMemVx_stores {x : Reg} (hm : s.mem.wf (resetByte s.cfg)) (hx : s.ea x.val ≤ 0xFFF)
    (h : exec (.ldMemVx x) s = .next t) :
    t = { s with mem := t.mem } ∧ ∀ k : Reg, k ≤ x → t.byte (s.ea k.val) = s.V k := by
  obtain ⟨ht, -, hback⟩ := State.writeBytes_spec _ (writeBytes_of_exec_ldMemVx hx h)
  refine ⟨ht, fun k hk => ?_⟩
  have hlt : k.val < (s.regsUpTo x).length := by
    rw [State.regsUpTo_length]
    exact Nat.lt_succ_of_le hk
  exact ((hback hm).1 k.val hlt).trans (State.regsUpTo_getElem s x k.val hlt)

/-- Settles O40: the two bytes the fetch reads are the first two of the store. -/
theorem storeIsSeenByTheNextFetch : Obligations.StoreIsSeenByTheNextFetch := by
  intro x s t hm h1 hi hx h
  obtain ⟨ht, hback⟩ := exec_ldMemVx_stores hm hx h
  have hpc : t.pc = s.pc := by rw [ht]
  have hbound : s.pc.toNat ≤ 0xFFE := by simp only [State.ea, hi] at hx; omega
  have hhi : t.byte s.pc.toNat = s.V 0 := hi ▸ hback 0 (Nat.zero_le _)
  have hlo : t.byte (s.pc.toNat + 1) = s.V 1 := hi ▸ hback 1 h1
  refine ⟨wordOfBytes (s.V 0) (s.V 1), ?_, wordOfBytes_toNat _ _⟩
  rw [fetch_eq, hpc, if_pos hbound, hhi, hlo]

/-! ### The load (R69; 60_exceptions.md R265) -/

/-- A load that is taken fits. -/
theorem fits_of_deliver_load {bytes : List Byte} {o : Nat} (h : deliver (.load bytes o) s = .next t) :
    o + bytes.length ≤ memSize := by
  rcases deliver_next h with ⟨-, ⟨he, -⟩ | ⟨-, ⟨he, -⟩ | ⟨he, -⟩ | ⟨_, _, _, he, -⟩⟩ | ⟨-, _, _, _, he, hload, -⟩⟩
  all_goals cases he
  exact (State.load_isSome s bytes o).1 (Option.isSome_of_eq_some hload)

/-- A load that answers, delivered before the run has begun, completes and begins the run. -/
theorem deliver_load_of_load {bytes : List Byte} {o : Nat} (hstarted : s.started = false) (hrun : s.run ≠ .halted)
    (h : s.load bytes o = some u) : deliver (.load bytes o) s = .next { u with started := true } := by
  simp [deliver, deliverLoad, hstarted, hrun, h]

/-- Settles O51: the image that fits is written by `load`, and the mark is all that is set beside it. -/
theorem loadCopiesTheImage : Obligations.LoadCopiesTheImage := by
  intro s bytes o hstarted hrun
  refine ⟨fun hbig t h => Nat.not_lt.2 (fits_of_deliver_load h) hbig, fun hfit => ?_⟩
  obtain ⟨u, hload⟩ := Option.isSome_iff_exists.1 ((State.load_isSome s bytes o).2 hfit)
  obtain ⟨hu, hother, hback⟩ := State.load_spec hload
  refine ⟨_, deliver_load_of_load hstarted hrun hload, rfl, ?_, fun hm k hk => ?_⟩
  · have hframe : OnlyChanges (fun p => p = .started ∨ ∃ k, k < bytes.length ∧ p = .mem (o + k)) s u :=
      .of_mem hu fun a ha => hother a fun k hk e => ha (.inr ⟨k, hk, congrArg Part.mem e⟩)
    exact hframe.setStarted (.inl rfl) true
  · exact (congrArg some ((hback hm).1 k hk)).trans (List.getElem?_eq_getElem hk).symm

end Sys2Proof.Machine
end

section
/-! SUPPORT. The decoder and the encoder are inverse, and the decoder is total over the map (30_encoding.md R94 to
R102). -/

namespace Sys2Proof

/-! ### What the decoder answers on the word of an instruction -/

/-- The word of an instruction decodes to it: the word has the row's `op`, the row's key where the group has one, and
the operands in the fields (R94, R102). -/
theorem decode_encode (i : Instr) : decode (encode i) = .ok i := by
  cases i
  case cls | ret => rfl
  case jp nnn | call nnn | ldI nnn | jpV0 nnn =>
    simp only [encode, decode, fieldOp_wordNNN, fieldNNN_wordNNN, Nat.reduceLT]
  case seImm x nn | sneImm x nn | ldImm x nn | addImm x nn | rnd x nn =>
    simp only [encode, decode, fieldOp_wordXNN, fieldX_wordXNN, fieldNN_wordXNN, Nat.reduceLT]
  case seReg x y n | sneReg x y n | drw x y n =>
    simp only [encode, decode, fieldOp_wordXYN, fieldX_wordXYN, fieldY_wordXYN, fieldN_wordXYN, Nat.reduceLT]
  case ldReg x y | orReg x y | andReg x y | xorReg x y | addReg x y | subReg x y | shr x y | subnReg x y | shl x y =>
    simp [encode, decode, decodeGroup8, fieldOp_wordXYN, fieldX_wordXYN, fieldY_wordXYN, bits_low_wordXYN]
  case skp x | sknp x =>
    simp [encode, decode, decodeGroupE, fieldOp_wordXNN, fieldX_wordXNN, bits_low_wordXNN]
  case ldVxDT x | ldVxK x | ldDTVx x | ldSTVx x | addI x | ldF x | ldB x | ldMemVx x | ldVxMem x =>
    simp [encode, decode, decodeGroupF, fieldOp_wordXNN, fieldX_wordXNN, bits_low_wordXNN]

/-! ### A word is the word of its fields (R91, R92) -/

section Fields

variable {w : Word} {op : Nat} (hop : fieldOp w = op)
include hop

theorem wordNNN_of_bits {nnn : Addr12} (h : bits w 11 0 = nnn.toNat) : wordNNN op nnn = w := by
  have := w.isLt
  apply BitVec.eq_of_toNat_eq
  simp only [fieldOp, bits] at hop h
  rw [wordNNN_toNat (by omega)]
  omega

theorem wordXNN_of_bits {nn : Byte} (h : bits w 7 0 = nn.toNat) : wordXNN op (fieldX w) nn = w := by
  have := w.isLt
  apply BitVec.eq_of_toNat_eq
  simp only [fieldOp, bits] at hop h
  rw [wordXNN_toNat (by omega)]
  simp only [fieldX, bits, Fin.ofNat]
  omega

theorem wordXYN_of_bits {n : Nibble} (h : bits w 3 0 = n.val) : wordXYN op (fieldX w) (fieldY w) n = w := by
  have := w.isLt
  apply BitVec.eq_of_toNat_eq
  simp only [fieldOp, bits] at hop h
  rw [wordXYN_toNat (by omega)]
  simp only [fieldX, fieldY, bits, Fin.ofNat]
  omega

theorem wordNNN_fields : wordNNN op (fieldNNN w) = w :=
  wordNNN_of_bits hop (by simp [fieldNNN, bits])

theorem wordXNN_fields : wordXNN op (fieldX w) (fieldNN w) = w :=
  wordXNN_of_bits hop (by simp [fieldNN, bits])

theorem wordXYN_fields : wordXYN op (fieldX w) (fieldY w) (fieldN w) = w :=
  wordXYN_of_bits hop (by simp [fieldN, bits])

end Fields

/-! ### A word that decodes is the word of what it decodes to -/

section Inverse

variable {w : Word} {i : Instr}

theorem encode_of_decodeGroup0 (hop : fieldOp w = 0x0) (h : decodeGroup0 w = .ok i) : encode i = w := by
  unfold decodeGroup0 at h
  split at h <;> cases h
  case h_1 hkey => exact wordNNN_of_bits (nnn := 0x0E0) hop hkey
  case h_2 hkey => exact wordNNN_of_bits (nnn := 0x0EE) hop hkey

theorem encode_of_decodeGroup8 (hop : fieldOp w = 0x8) (h : decodeGroup8 w = .ok i) : encode i = w := by
  unfold decodeGroup8 at h
  split at h <;> cases h
  all_goals next hkey => exact wordXYN_of_bits hop hkey

theorem encode_of_decodeGroupE (hop : fieldOp w = 0xE) (h : decodeGroupE w = .ok i) : encode i = w := by
  unfold decodeGroupE at h
  split at h <;> cases h
  all_goals next hkey => exact wordXNN_of_bits hop hkey

theorem encode_of_decodeGroupF (hop : fieldOp w = 0xF) (h : decodeGroupF w = .ok i) : encode i = w := by
  unfold decodeGroupF at h
  split at h <;> cases h
  all_goals next hkey => exact wordXNN_of_bits hop hkey

/-- No bit of a word that decodes is dropped: the fields of its row, and the row's key where the group has one, are
all of it (R99, R102). -/
theorem encode_of_decode (h : decode w = .ok i) : encode i = w := by
  unfold decode at h
  split at h
  case h_1 hop => exact encode_of_decodeGroup0 hop h
  case h_9 hop => exact encode_of_decodeGroup8 hop h
  case h_15 hop => exact encode_of_decodeGroupE hop h
  case h_16 hop => exact encode_of_decodeGroupF hop h
  all_goals cases h
  case h_2 hop | h_3 hop | h_11 hop | h_12 hop => exact wordNNN_fields hop
  case h_4 hop | h_5 hop | h_7 hop | h_8 hop | h_13 hop => exact wordXNN_fields hop
  case h_6 hop | h_10 hop | h_14 hop => exact wordXYN_fields hop

/-- Exactly the word of an instruction decodes to it. -/
theorem decode_eq_ok_iff : decode w = .ok i ↔ w = encode i :=
  ⟨fun h => (encode_of_decode h).symm, fun h => h ▸ decode_encode i⟩

/-- An instruction has the encoding its row of the map writes. -/
theorem encodedAs_of_encode_eq {v : Nat} (h : encode i = BitVec.ofNat 16 v) : Machine.EncodedAs i v :=
  fun _ => decode_eq_ok_iff.trans (h ▸ Iff.rfl)

end Inverse

/-! ### The decoder is total over the map -/

/-- The answer `r` on the word `w` is an instruction where `P` holds, and the rejection of `w` where it does not. -/
def AnswersWhere (P : Prop) (w : Word) (r : Except DecodeError Instr) : Prop :=
  (P → ∃ i, r = .ok i) ∧ (¬ P → r = .error (.unknownOpcode w))

section Answers

variable {P Q : Prop} {w : Word} {i : Instr} {r : Except DecodeError Instr}

theorem AnswersWhere.ok (h : P) : AnswersWhere P w (.ok i) :=
  ⟨fun _ => ⟨i, rfl⟩, absurd h⟩

theorem AnswersWhere.error (h : ¬ P) : AnswersWhere P w (.error (.unknownOpcode w)) :=
  ⟨fun hp => absurd hp h, fun _ => rfl⟩

theorem AnswersWhere.congr (hr : AnswersWhere P w r) (h : Q ↔ P) : AnswersWhere Q w r :=
  ⟨fun hq => hr.1 (h.1 hq), fun hq => hr.2 (mt h.2 hq)⟩

end Answers

/-- Group 0x0 holds the two words 00E0 and 00EE (R95). -/
theorem decodeGroup0_answers (w : Word) :
    AnswersWhere (bits w 11 0 = 0x0E0 ∨ bits w 11 0 = 0x0EE) w (decodeGroup0 w) := by
  unfold decodeGroup0
  split
  case h_3 hne hne' => exact .error (not_or.2 ⟨hne, hne'⟩)
  all_goals exact .ok (by omega)

/-- Group 0x8 has the keys 0 to 7 and E (R96). -/
theorem decodeGroup8_answers (w : Word) :
    AnswersWhere (bits w 3 0 ≤ 7 ∨ bits w 3 0 = 0xE) w (decodeGroup8 w) := by
  unfold decodeGroup8
  split
  case h_10 => exact .error (by grind)
  all_goals exact .ok (by omega)

/-- Group 0xE has the keys 9E and A1 (R97). -/
theorem decodeGroupE_answers (w : Word) :
    AnswersWhere (bits w 7 0 = 0x9E ∨ bits w 7 0 = 0xA1) w (decodeGroupE w) := by
  unfold decodeGroupE
  split
  case h_3 hne hne' => exact .error (not_or.2 ⟨hne, hne'⟩)
  all_goals exact .ok (by omega)

/-- Group 0xF has nine keys (R98). -/
theorem decodeGroupF_answers (w : Word) :
    AnswersWhere (bits w 7 0 ∈ [0x07, 0x0A, 0x15, 0x18, 0x1E, 0x29, 0x33, 0x55, 0x65]) w (decodeGroupF w) := by
  unfold decodeGroupF
  simp only [List.mem_cons, List.not_mem_nil, or_false]
  split
  case h_10 => exact .error (by grind)
  all_goals exact .ok (by omega)

theorem fieldOp_lt (w : Word) : fieldOp w < 16 :=
  Nat.mod_lt _ (by decide)

/-- Decoding answers an instruction on the words of the map and rejects every other word by name (R99, R100). -/
theorem decode_answers (w : Word) : AnswersWhere (Machine.DefinedWord w) w (decode w) := by
  have hlt := fieldOp_lt w
  unfold decode Machine.DefinedWord
  rw [← fieldOp]
  split
  case h_1 hop => exact (decodeGroup0_answers w).congr (by simp [hop])
  case h_9 hop => exact (decodeGroup8_answers w).congr (by simp [hop])
  case h_15 hop => exact (decodeGroupE_answers w).congr (by simp [hop])
  case h_16 hop => exact (decodeGroupF_answers w).congr (by simp [hop])
  case h_17 => grind
  all_goals next hop => exact .ok (by simp [hop])

/-! ### The statements -/

/-- Settles O2, by one case per instruction, grouped by the format of its word. -/
theorem decodeOfEncode : Obligations.DecodeOfEncode :=
  decode_encode

/-- Settles O3: in each group the fields the row reads, with the group's key, make up the whole word. -/
theorem encodeOfDecode : Obligations.EncodeOfDecode :=
  fun _ _ => encode_of_decode

/-- Settles O4, group by group. -/
theorem decodingIsTotalOverTheMap : Obligations.DecodingIsTotalOverTheMap :=
  decode_answers

/-- Settles O1, by running the decoder on the seventeen words. -/
theorem sampleWordsDecode : Obligations.SampleWordsDecode := by
  unfold Obligations.SampleWordsDecode
  decide

end Sys2Proof
end

section
/-! SUPPORT. The engine cycle (40_engine_cycle.md R120 to R128): whose turn a step is, what an engine step answers in
each phase, and which events a suspended or a halted engine still takes. -/

namespace Sys2Proof.Machine

variable {s t : State} {i : Instr} {w : Word}

/-! ### Whose turn a step is (60_exceptions.md R264) -/

/-- A step that the schedule asks for is the engine's, in every run state. -/
theorem deliver_step (s : State) : deliver .step s = engineStep s := by
  unfold deliver
  split
  next hrun => simp only [engineStep, hrun]
  next => rfl

theorem step_of_env_nil (henv : s.env = []) : step s = engineStep s := by
  simp only [step, nextEvent, henv]

theorem step_of_env_cons {e : Event} {rest : List Event} (henv : s.env = e :: rest) :
    step s = deliver e { s with env := rest } := by
  simp only [step, nextEvent, henv]

theorem step_of_env_step {rest : List Event} (henv : s.env = .step :: rest) :
    step s = engineStep { s with env := rest } :=
  (step_of_env_cons henv).trans (deliver_step _)

/-- The engine has a step only while RUN = Ready. -/
theorem engineStep_ne_next (hrun : s.run ≠ .ready) (t : State) : engineStep s ≠ .next t :=
  fun h => hrun (engineStep_next h).1

/-! ### What an engine step answers, phase by phase (R121 to R125) -/

/-- The state a faulting engine step leaves (R128): RUN and FAULT are written, and the run has begun (log entry 5). -/
def State.stopped (s : State) (k : FaultKind) (w : Option Word) : State :=
  { s with run := .halted, fault := some ⟨k, s.pc, w⟩, started := true }

theorem State.stopped_onlyChanges (s : State) (k : FaultKind) (w : Option Word) :
    OnlyChanges (fun p => p = .run ∨ p = .fault ∨ (p = .started ∧ s.started = false)) s (s.stopped k w) := by
  intro p hp
  cases p with
  | run | fault => simp at hp
  | started =>
    have hbegun : s.started = true := by simpa using hp
    exact hbegun.symm
  | _ => rfl

section Phases

variable (hrun : s.run = .ready)
include hrun

theorem engineStep_of_ready : engineStep s = cycle { s with started := true } := by
  rw [engineStep, hrun]

/-- A fetch that fails stops the engine, with no word recorded (R121). -/
theorem engineStep_of_fetch_none (hf : fetch s = none) : engineStep s = .next (s.stopped .outOfBounds none) := by
  have hf' : fetch { s with started := true } = none := hf
  rw [engineStep_of_ready hrun, cycle, hf']
  rfl

/-- A word that dispatch rejects stops the engine (R124). -/
theorem engineStep_of_dispatch_error {e : DecodeError} (hf : fetch s = some w) (hd : dispatch s.cfg w = .error e) :
    engineStep s = .next (s.stopped .unknownOpcode (some w)) := by
  have hf' : fetch { s with started := true } = some w := hf
  simp only [engineStep_of_ready hrun, cycle, hf', hd]
  rfl

/-- A word that dispatch accepts is executed after the advance (R123, R125). -/
theorem engineStep_of_dispatch_ok (hf : fetch s = some w) (hd : dispatch s.cfg w = .ok i) :
    engineStep s = exec i (advance { s with started := true }) := by
  have hf' : fetch { s with started := true } = some w := hf
  simp only [engineStep_of_ready hrun, cycle, hf', hd]

end Phases

/-- An execute part begun in RUN = Ready ends Halted only by a fault (R128). -/
theorem exec_halted (hrun : s.run = .ready) (h : exec i s = .next t) (ht : t.run = .halted) :
    ∃ k, t = { s with pc := s.pc - 2, run := .halted, fault := some ⟨k, s.pc - 2, some (encode i)⟩ } := by
  cases exec_effect h with
  | fault hk => exact ⟨_, rfl⟩
  | waitKey hi => cases ht
  | _ => simp [hrun] at ht

/-- An engine step ends Halted only by a fault, and what it records is the address and the word fetched (R128): the
word a fault of the execute part records is the one fetched, since decoding loses nothing. -/
theorem engineStep_halted (h : engineStep s = .next t) (ht : t.run = .halted) : ∃ k, t = s.stopped k (fetch s) := by
  obtain ⟨hrun, -⟩ := engineStep_next h
  cases hf : fetch s with
  | none =>
    rw [engineStep_of_fetch_none hrun hf] at h
    cases h
    exact ⟨_, rfl⟩
  | some w =>
    cases hd : dispatch s.cfg w with
    | error e =>
      rw [engineStep_of_dispatch_error hrun hf hd] at h
      cases h
      exact ⟨_, rfl⟩
    | ok i =>
      rw [engineStep_of_dispatch_ok hrun hf hd] at h
      obtain ⟨k, rfl⟩ := exec_halted (s := advance { s with started := true }) hrun h ht
      have hw : encode i = w := encode_of_decode (dispatch_eq_ok.1 hd).1
      exact ⟨k, by rw [advance_undone, hw]; rfl⟩

/-- Settles O10: by `engineStep_halted` the state left is `State.stopped`. -/
theorem faultsArePrecise : Obligations.FaultsArePrecise := by
  intro s t h ht
  obtain ⟨k, rfl⟩ := engineStep_halted h ht
  exact ⟨k, rfl, rfl, s.stopped_onlyChanges k _⟩

/-- Settles O8: `fetch_eq` says where the fetch answers. -/
theorem fetchReadsABigEndianWordOrFaults : Obligations.FetchReadsABigEndianWordOrFaults := by
  intro s
  refine ⟨fun hpc => ⟨_, by rw [fetch_eq, if_pos hpc], wordOfBytes_toNat _ _⟩, fun hpc => ?_⟩
  have hf : fetch s = none := by rw [fetch_eq, if_neg (Nat.not_le.2 hpc)]
  exact ⟨hf, fun hrun => ⟨_, engineStep_of_fetch_none hrun hf, rfl, rfl, s.stopped_onlyChanges _ _⟩⟩

/-- Dispatch rejects the words outside the map, and those the strict switch takes out of it (R124; 00_scope.md R7). -/
theorem dispatch_error_of_unknown {c : Config}
    (h : ¬ DefinedWord w ∨ (c.strict5xy0 = true ∧ (bits w 15 12 = 5 ∨ bits w 15 12 = 9) ∧ bits w 3 0 ≠ 0)) :
    dispatch c w = .error (.unknownOpcode w) := by
  obtain hundef | hstrict := h
  · simp only [dispatch, (decode_answers w).2 hundef]
  · exact (strictSwitchRemovesExactly5xynAnd9xyn c w).1 hstrict

/-- Settles O9: dispatch rejects the word. -/
theorem unknownWordHaltsTheEngine : Obligations.UnknownWordHaltsTheEngine := by
  intro s w hrun hf hw
  exact ⟨_, engineStep_of_dispatch_error hrun hf (dispatch_error_of_unknown hw), rfl, rfl, s.stopped_onlyChanges _ _⟩

/-- Settles O6: the word at pc is fetched and dispatched, whether the engine's turn is the default or scheduled. -/
theorem stepRunsTheDecodedInstruction : Obligations.StepRunsTheDecodedInstruction := by
  intro s i hrun hpc hdec hwf
  have hf : fetch s = some (wordOfBytes (s.byte s.pc.toNat) (s.byte (s.pc.toNat + 1))) := by rw [fetch_eq, if_pos hpc]
  have hd := dispatch_eq_ok.2 ⟨hdec, hwf⟩
  refine ⟨fun henv => ?_, fun rest henv => ?_⟩
  · exact (step_of_env_nil henv).trans (engineStep_of_dispatch_ok hrun hf hd)
  · exact (step_of_env_step henv).trans (engineStep_of_dispatch_ok (s := { s with env := rest }) hrun hf hd)

/-! ### The word the host places (log entry 26) -/

/-- After the two bytes of a word are written at `a` and `a + 1`, they read back. -/
theorem Memory.read_write_word {base : Nat → Byte} {m : Memory} (hm : m.wf base) {a : Nat} (ha : a < memSize)
    (hi lo : Byte) :
    ((m.write base a hi).write base (a + 1) lo).read base a = hi ∧
      ((m.write base a hi).write base (a + 1) lo).read base (a + 1) = lo := by
  refine ⟨?_, Memory.read_write_same (Memory.write_wf hm ha hi) (a + 1) lo⟩
  rw [Memory.read_write_other _ _ a.lt_succ_self.ne, Memory.read_write_same hm]

/-- Placing a word writes its two bytes at pc, where an instruction has room. -/
theorem placeWord_writes (w : Word) (s : State) :
    ∃ a, a + 1 < memSize ∧ (placeWord w s).pc = BitVec.ofNat 16 a ∧ (placeWord w s).mem =
      (s.mem.write (resetByte s.cfg) a (highByte w)).write (resetByte s.cfg) (a + 1) (lowByte w) := by
  refine ⟨_, ?_, rfl, rfl⟩
  split
  next hroom => exact hroom
  next => decide

/-- The placed word is the word the fetch reads (R121). -/
theorem fetch_placeWord (hm : s.mem.wf (resetByte s.cfg)) (w : Word) : fetch (placeWord w s) = some w := by
  obtain ⟨a, ha, hpc, hmem⟩ := placeWord_writes w s
  have hpc' : (placeWord w s).pc.toNat = a := by
    rw [hpc, BitVec.toNat_ofNat, Nat.mod_eq_of_lt ((Nat.lt_of_succ_lt ha).trans (by decide))]
  have hcfg : (placeWord w s).cfg = s.cfg := rfl
  obtain ⟨hhi, hlo⟩ := Memory.read_write_word hm (Nat.lt_of_succ_lt ha) (highByte w) (lowByte w)
  rw [fetch, State.read16_eq, hpc', if_pos ha]
  simp only [State.byte, hcfg, hmem, hhi, hlo, wordOfBytes_bytes]

/-- Settles O7: the engine is Ready, it is its turn, and it fetches the placed word. -/
theorem placedWordIsRunNext : Obligations.PlacedWordIsRunNext := by
  intro s w i hm hw hdec hwf
  have hp : s.withFetchWord 16 w = placeWord (BitVec.ofNat 16 w) s := by
    rw [State.withFetchWord, Nat.mod_eq_of_lt (show w < 2 ^ 16 from hw)]
  rw [hp, step_of_env_nil rfl]
  exact engineStep_of_dispatch_ok rfl (fetch_placeWord hm _) (dispatch_eq_ok.2 ⟨hdec, hwf⟩)

/-! ### While RUN = Suspended (R126) -/

/-- Settles O53: in both cases the step is the engine's. -/
theorem suspendedStepHasNoNextState : Obligations.SuspendedStepHasNoNextState := by
  intro s t x hrun
  have hready : s.run ≠ .ready := by simp [hrun]
  refine ⟨fun henv => ?_, fun rest henv => ?_⟩
  · rw [step_of_env_nil henv]
    exact engineStep_ne_next hready t
  · rw [step_of_env_step henv]
    exact engineStep_ne_next (s := { s with env := rest }) hready t

/-- A tick is taken once the load is complete (60_exceptions.md R257, R264). -/
theorem deliver_tick (hrun : s.run ≠ .halted) (hstarted : s.started = true) : deliver .tick s = .next (tick s) := by
  simp only [deliver, if_neg hrun, hstarted, if_true]

/-- A key event is taken once the load is complete (R261, R264). -/
theorem deliver_key (hrun : s.run ≠ .halted) (hstarted : s.started = true) (k : Fin 16) (p : Bool) :
    deliver (.key k.val p) s = .next (setKeyState k p s) := by
  simp only [deliver, if_neg hrun, deliverKey, k.isLt, hstarted, if_true, dite_true]

/-- A wait ends at the press of a released key (R263). -/
theorem setKeyState_press_run {x : Reg} {k : Fin 16} (hrun : s.run = .suspended x) (hk : s.pressed k = false) :
    (setKeyState k true s).run = .ready := by
  obtain ⟨_, -, -, -, hs⟩ | ⟨hno, -⟩ := setKeyState_cases k true s
  · rw [hs]
  · obtain hp | hp := hno x hrun
    · cases hp
    · rw [hk] at hp
      cases hp

/-- A key event changes RUN only by ending a wait, at the press of a released key (R263). -/
theorem setKeyState_run (k : Fin 16) (p : Bool) (s : State) :
    (setKeyState k p s).run = s.run ∨ (p = true ∧ s.pressed k = false ∧ (setKeyState k p s).run = .ready) := by
  obtain ⟨_, -, hp, hk, hs⟩ | ⟨-, hs⟩ := setKeyState_cases k p s
  · exact .inr ⟨hp, hk, by rw [hs]⟩
  · exact .inl (by rw [hs])

/-- An event that is taken while the engine has no step leaves pc, and leaves RUN unless it is the press of a released
key. -/
theorem deliver_of_not_ready {e : Event} (hready : s.run ≠ .ready) (h : deliver e s = .next t) :
    t.pc = s.pc ∧
      (t.run = s.run ∨ ∃ k : Fin 16, e = .key k.val true ∧ s.pressed k = false ∧ t.run = .ready) := by
  obtain ⟨-, ⟨-, hstep⟩ | ⟨-, ⟨-, rfl⟩ | ⟨-, rfl⟩ | ⟨k, p, hk, rfl, rfl⟩⟩ | ⟨-, bytes, o, u, -, hload, rfl⟩⟩ :=
    deliver_next h
  · exact absurd hstep (engineStep_ne_next hready t)
  · exact ⟨rfl, .inl rfl⟩
  · exact ⟨rfl, .inl rfl⟩
  · refine ⟨setKeyState_pc _ _ _, (setKeyState_run ⟨k, hk⟩ p s).imp_right ?_⟩
    rintro ⟨rfl, hreleased, hrun⟩
    exact ⟨⟨k, hk⟩, rfl, hreleased, hrun⟩
  · have hu := (State.load_spec hload).1
    exact ⟨by rw [hu], .inl (by rw [hu])⟩

/-- Settles O12: the engine has no step while RUN is not Ready, and a key event is the only other that writes RUN. -/
theorem suspendedEngineHasNoStep : Obligations.SuspendedEngineHasNoStep := by
  intro s x hrun
  have hready : s.run ≠ .ready := by simp [hrun]
  have hhalted : s.run ≠ .halted := by simp [hrun]
  refine ⟨fun t => ⟨engineStep_ne_next hready t, ?_⟩, fun hstarted => ?_, fun hstarted k hk => ?_, fun e t => ?_⟩
  · rw [deliver_step]
    exact engineStep_ne_next hready t
  · exact ⟨_, deliver_tick hhalted hstarted, rfl, rfl⟩
  · exact ⟨_, deliver_key hhalted hstarted k true, setKeyState_press_run hrun hk, setKeyState_pc _ _ _⟩
  · exact deliver_of_not_ready hready

/-! ### While RUN = Halted (R127) -/

/-- No event is taken in a Halted state (60_exceptions.md R272). -/
theorem deliver_ne_next_of_halted (hrun : s.run = .halted) (e : Event) (t : State) : deliver e s ≠ .next t :=
  fun h => (deliver_next h).1 hrun

/-- Settles O13: a step is the engine's or delivers an event, and neither is taken. -/
theorem haltedIsPermanent : Obligations.HaltedIsPermanent := by
  intro s t hrun
  have hengine : engineStep s ≠ .next t := engineStep_ne_next (by simp [hrun]) t
  refine ⟨?_, hengine, fun e => deliver_ne_next_of_halted hrun e t⟩
  cases henv : s.env with
  | nil => rwa [step_of_env_nil henv]
  | cons e rest =>
    rw [step_of_env_cons henv]
    exact deliver_ne_next_of_halted (s := { s with env := rest }) hrun e t

end Sys2Proof.Machine
end

section
/-! SUPPORT. The control-flow instructions (41_control_flow.md R140 to R147): the encoding, the faults of RET and CALL,
and where pc goes, with the frame of each. -/

namespace Sys2Proof.Machine

variable {s t : State} {i : Instr} {W : Part → Prop}

/-! ### Frames of the operations that control flow is made of -/

theorem OnlyChanges.refl (W : Part → Prop) (s : State) : OnlyChanges W s s := by
  intro p _
  cases p <;> rfl

/-- Where pc may change, a jump changes nothing more. -/
theorem OnlyChanges.setPc (h : OnlyChanges W s t) (hW : W .pc) (a : Word) : OnlyChanges W s { t with pc := a } := by
  intro p hp
  cases p with
  | pc => exact absurd hW hp
  | _ => exact h _ hp

theorem onlyChanges_pc (s : State) (a : Word) : OnlyChanges (fun p => p = .pc) s { s with pc := a } :=
  OnlyChanges.setPc (W := fun p => p = .pc) (.refl _ s) rfl a

/-- A pop changes SP alone: the slot popped keeps its value (10_state.md R28). -/
theorem State.pop_onlyChanges {r : Word} (h : s.pop = some (r, t)) (hW : W .sp) : OnlyChanges W s t := by
  obtain ⟨-, ht, -⟩ := State.pop_spec h
  intro p hp
  cases p with
  | sp => exact absurd hW hp
  | _ => rw [ht]; rfl

/-- A push changes SP and the slot at SP alone. -/
theorem State.push_onlyChanges {r : Word} {d : Fin 16} (h : s.push r = some t) (hd : s.sp.val = d.val) (hsp : W .sp)
    (hslot : W (.stack d)) : OnlyChanges W s t := by
  obtain ⟨-, ht, -, hstack⟩ := State.push_spec h
  intro p hp
  cases p with
  | sp => exact absurd hsp hp
  | stack e =>
    have hne : e.val ≠ s.sp.val := fun he => hp (Fin.ext (he.trans hd) ▸ hslot)
    exact (hstack e.val e.isLt).trans (if_neg hne)
  | _ => rw [ht]; rfl

/-- An execute part that raises a fault leaves what R128 says. -/
theorem FaultsWith.of_raise {k : FaultKind} (h : exec i s = raise k i s) : FaultsWith k i s := by
  refine ⟨_, h.trans (raise_eq k i s), rfl, rfl, rfl, fun p hp => ?_⟩
  cases p with
  | pc | run | fault => simp at hp
  | _ => rfl

/-- A skip completes; it moves pc by 2 exactly where its condition holds, and changes nothing else (R143). -/
theorem skipIf_moves_pc {c : Bool} {P : Prop} [Decidable P] (hc : c = true ↔ P) :
    ∃ t, skipIf c s = .next t ∧ OnlyChanges (fun p => p = .pc) s t ∧ t.pc = if P then s.pc + 2 else s.pc := by
  cases c with
  | false => exact ⟨s, rfl, .refl _ s, (if_neg (by simp [← hc])).symm⟩
  | true => exact ⟨_, rfl, onlyChanges_pc s _, (if_pos (hc.1 rfl)).symm⟩

/-! ### RET and CALL (R140, R142) -/

theorem exec_ret_of_empty (hsp : s.sp.val = 0) : exec .ret s = raise .stackUnderflow .ret s := by
  simp only [exec, execRet, State.pop_eq_none.2 hsp]

theorem exec_call_of_full {nnn : Addr12} (hsp : s.sp.val = 16) :
    exec (.call nnn) s = raise .stackOverflow (.call nnn) s := by
  simp only [exec, execCall, State.push_eq_none.2 hsp]

/-- A CALL with a slot free pushes the advanced pc and jumps. -/
theorem exec_call_of_lt {nnn : Addr12} (hsp : s.sp.val < 16) :
    ∃ p, s.push s.pc = some p ∧ exec (.call nnn) s = .next { p with pc := zextAddr nnn } := by
  obtain ⟨p, hp⟩ := Option.isSome_iff_exists.1 ((State.push_isSome s s.pc).2 hsp)
  exact ⟨p, hp, by simp only [exec, execCall, hp]⟩

/-- Settles O20: the pop answers the top slot and takes it off, or there is none. -/
theorem retPopsTheReturnAddress : Obligations.RetPopsTheReturnAddress := by
  refine ⟨encodedAs_of_encode_eq rfl, fun s => ⟨fun hsp => .of_raise (exec_ret_of_empty hsp), fun d hsp => ?_⟩⟩
  obtain ⟨r, p, hpop, hret⟩ := exec_ret_of_pos (u := s) (by omega)
  obtain ⟨_, -, hdepth, hr⟩ := State.pop_spec hpop
  have htop : s.sp.val - 1 = d.val := by omega
  refine ⟨_, hret, ?_, hdepth.trans htop, (State.pop_onlyChanges hpop (.inr rfl)).setPc (.inl rfl) r⟩
  simp only [hr, htop]

/-- Settles O22: the push fills the slot at SP with the advanced pc, or there is none free. -/
theorem callPushesTheAdvancedPc : Obligations.CallPushesTheAdvancedPc := by
  intro nnn s
  refine ⟨encodedAs_of_encode_eq rfl, fun hsp => .of_raise (exec_call_of_full hsp), fun d hsp => ?_⟩
  obtain ⟨p, hpush, hcall⟩ := exec_call_of_lt (s := s) (nnn := nnn) (hsp ▸ d.isLt)
  obtain ⟨-, -, hdepth, hstack⟩ := State.push_spec hpush
  have hframe : OnlyChanges (fun q => q = .pc ∨ q = .sp ∨ q = .stack d) s p :=
    State.push_onlyChanges hpush hsp (.inr (.inl rfl)) (.inr (.inr rfl))
  exact ⟨_, hcall, (hstack d.val d.isLt).trans (if_pos hsp.symm), hsp ▸ hdepth, zextAddr_toNat nnn,
    hframe.setPc (.inl rfl) _⟩

/-! ### Jumps (R141, R147) -/

/-- Settles O21: the jump writes pc alone. -/
theorem jpJumpsToTheAddress : Obligations.JpJumpsToTheAddress := fun nnn s =>
  ⟨encodedAs_of_encode_eq rfl, _, rfl, zextAddr_toNat nnn, onlyChanges_pc s _⟩

/-- Settles O26: the jump writes pc alone, and the sum of a byte and 12 bits does not reach 65536. -/
theorem jpV0AddsTheOffset : Obligations.JpV0AddsTheOffset := fun nnn s =>
  ⟨encodedAs_of_encode_eq rfl, _, rfl, offsetTarget_toNat (s.V 0) nnn, onlyChanges_pc s _⟩

/-! ### Skips (R143 to R146) -/

/-- Settles O24: each is `skipIf`, on equality and on inequality with the immediate. -/
theorem immediateSkips : Obligations.ImmediateSkips := fun _ _ _ =>
  ⟨encodedAs_of_encode_eq rfl, encodedAs_of_encode_eq rfl, skipIf_moves_pc beq_iff_eq, skipIf_moves_pc bne_iff_ne⟩

/-- Settles O25: each is `skipIf`, on equality and on inequality of the two registers, and no arm reads n. -/
theorem registerSkips : Obligations.RegisterSkips := fun _ _ _ _ =>
  ⟨encodedAs_of_encode_eq rfl, encodedAs_of_encode_eq rfl, skipIf_moves_pc beq_iff_eq, skipIf_moves_pc bne_iff_ne⟩

end Sys2Proof.Machine
end

section
/-! SUPPORT. The register and ALU instructions (42_alu.md R160 to R171): the encoding, the byte and the flag each
writes, and the frame of each. -/

namespace Sys2Proof.Machine

variable {s t : State} {i : Instr} {W : Part → Prop}

/-! ### The words of group 0x8 (30_encoding.md R96) -/

/-- The one word of an instruction of group 0x8, its key `n` beside the group's opcode. -/
theorem encodedAs_of_group8 {x y : Reg} {n : Nibble} {w : Nat} (h : encode i = wordXYN 0x8 x y n)
    (hw : w = 0x8000 + n.val) : EncodedAs i (w + x.val * 256 + y.val * 16) := by
  refine encodedAs_of_encode_eq (h.trans ?_)
  unfold wordXYN
  congr 1
  omega

/-! ### Frames of the register writes and of the oracle's answer -/

theorem State.setV_V_self (s : State) (x : Reg) (b : Byte) : (s.setV x b).V x = b :=
  (s.setV_V x b x).trans (if_pos rfl)

/-- Where Vx may change, a write to Vx changes nothing more. -/
theorem OnlyChanges.setV {x : Reg} (h : OnlyChanges W s t) (hW : W (.v x)) (b : Byte) :
    OnlyChanges W s (t.setV x b) := by
  intro p hp
  cases p with
  | v y =>
    have hne : y ≠ x := fun he => hp (he ▸ hW)
    exact (t.setV_V x b y).trans ((if_neg hne).trans (h _ hp))
  | _ => exact h _ hp

theorem onlyChanges_setV (s : State) (x : Reg) (b : Byte) : OnlyChanges (fun p => p = .v x) s (s.setV x b) :=
  OnlyChanges.setV (W := fun p => p = .v x) (.refl _ s) rfl b

/-- Where Vx and VF may change, a result and its flag change nothing more, in whichever order they are written. -/
theorem OnlyChanges.setVWithFlag {x : Reg} (h : OnlyChanges W s t) (hx : W (.v x)) (hf : W (.v vf)) (r : Byte)
    (c : Bool) : OnlyChanges W s (t.setVWithFlag x r c) := by
  unfold State.setVWithFlag
  split
  · exact (h.setV hx r).setV hf (bool01 c)
  · exact (h.setV hf (bool01 c)).setV hx r

/-- A request to the oracle changes the count of requests alone (60_exceptions.md R268). -/
theorem draw_onlyChanges (s : State) (hW : W .draws) : OnlyChanges W s (draw s).2 := by
  intro p hp
  cases p with
  | draws => exact absurd hW hp
  | _ => rfl

/-! ### The results and flags as numbers (R166 to R170) -/

theorem byte_sub_toNat (a b : Byte) : (a - b).toNat = (a.toNat + 256 - b.toNat) % 256 := by
  have := b.isLt
  rw [BitVec.toNat_sub]
  omega

theorem byte_shiftRight_one_toNat (a : Byte) : (a >>> 1).toNat = a.toNat / 2 := by
  rw [BitVec.toNat_ushiftRight, Nat.shiftRight_one]

theorem byte_shiftLeft_one_toNat (a : Byte) : (a <<< 1).toNat = a.toNat * 2 % 256 := by
  rw [BitVec.toNat_shiftLeft, Nat.shiftLeft_eq, pow_one]

theorem bool01_carryOut_toNat (a b : Byte) :
    (bool01 (carryOut a b)).toNat = if a.toNat + b.toNat > 255 then 1 else 0 := by
  simp only [bool01_toNat, carryOut, decide_eq_true_eq]

theorem bool01_notBorrow_toNat (a b : Byte) :
    (bool01 (notBorrow a b)).toNat = if a.toNat ≥ b.toNat then 1 else 0 := by
  simp only [bool01_toNat, notBorrow, decide_eq_true_eq]

theorem bool01_lowBit_toNat (a : Byte) : (bool01 (lowBit a)).toNat = a.toNat % 2 := by
  simp only [bool01_toNat, lowBit, decide_eq_true_eq]
  split <;> omega

/-- Of a byte, bit 7 is all that is above bit 6. -/
theorem bool01_highBit_toNat (a : Byte) : (bool01 (highBit a)).toNat = a.toNat / 128 := by
  have := a.isLt
  simp only [bool01_toNat, highBit, decide_eq_true_eq]
  split <;> omega

/-- The two writes leave the result and the flag, and at x = 15 the one of them written last (R166, 00_scope.md R7). -/
theorem setVWithFlag_flaggedResult {x : Reg} {r : Byte} {c : Bool} {rn fn : Nat} (hr : r.toNat = rn)
    (hf : (bool01 c).toNat = fn) : FlaggedResult x rn fn s (s.setVWithFlag x r c) := by
  refine ⟨OnlyChanges.setVWithFlag (.refl _ s) (.inl rfl) (.inr rfl) r c,
    fun hlast => ⟨?_, fun hx => ?_⟩, fun hlast => ⟨?_, fun hx => ?_⟩⟩
  · simp [State.setVWithFlag_V, hlast, hr]
  · simp [State.setVWithFlag_V, hlast, hx.symm, hf]
  · simp [State.setVWithFlag_V, hlast, hf]
  · simp [State.setVWithFlag_V, hlast, hx, hr]

/-! ### The statements -/

/-- Settles O27: each is one write to Vx, of a byte read before it. -/
theorem loadsAndAddImmediate : Obligations.LoadsAndAddImmediate := by
  intro x y nn s
  refine ⟨encodedAs_of_encode_eq rfl, encodedAs_of_encode_eq rfl, encodedAs_of_encode_eq rfl,
    ⟨_, rfl, onlyChanges_setV s x nn, s.setV_V_self x nn⟩,
    ⟨_, rfl, onlyChanges_setV s x _, ?_⟩,
    ⟨_, rfl, onlyChanges_setV s x _, s.setV_V_self x (s.V y)⟩⟩
  rw [State.setV_V_self, BitVec.toNat_add]

/-- Settles O28: each is one write to Vx, of a word operation that is the Boolean one bit by bit. -/
theorem bitwiseOperations : Obligations.BitwiseOperations := by
  intro x y s
  refine ⟨encodedAs_of_group8 rfl rfl, encodedAs_of_group8 rfl rfl, encodedAs_of_group8 rfl rfl,
    ⟨_, rfl, onlyChanges_setV s x _, fun k => ?_⟩,
    ⟨_, rfl, onlyChanges_setV s x _, fun k => ?_⟩,
    ⟨_, rfl, onlyChanges_setV s x _, fun k => ?_⟩⟩
  · rw [State.setV_V_self, BitVec.getLsbD_or]
  · rw [State.setV_V_self, BitVec.getLsbD_and]
  · rw [State.setV_V_self, BitVec.getLsbD_xor]

/-- Settles O29: each writes a result and its flag, the sum with its carry or the difference with NOT borrow. -/
theorem addAndSubtractWithFlag : Obligations.AddAndSubtractWithFlag := fun _ _ _ =>
  ⟨encodedAs_of_group8 rfl rfl, encodedAs_of_group8 rfl rfl, encodedAs_of_group8 rfl rfl,
    ⟨_, rfl, setVWithFlag_flaggedResult (BitVec.toNat_add _ _) (bool01_carryOut_toNat _ _)⟩,
    ⟨_, rfl, setVWithFlag_flaggedResult (byte_sub_toNat _ _) (bool01_notBorrow_toNat _ _)⟩,
    ⟨_, rfl, setVWithFlag_flaggedResult (byte_sub_toNat _ _) (bool01_notBorrow_toNat _ _)⟩⟩

/-- Settles O30: each writes a result and its flag, Vx shifted and the bit shifted out; no arm reads y. -/
theorem shiftsByOne : Obligations.ShiftsByOne := fun _ _ _ =>
  ⟨encodedAs_of_group8 rfl rfl, encodedAs_of_group8 rfl rfl,
    ⟨_, rfl, setVWithFlag_flaggedResult (byte_shiftRight_one_toNat _) (bool01_lowBit_toNat _)⟩,
    ⟨_, rfl, setVWithFlag_flaggedResult (byte_shiftLeft_one_toNat _) (bool01_highBit_toNat _)⟩⟩

/-- Settles O31: one request to the oracle, then one write to Vx of its answer under the mask. -/
theorem rndMasksAFreeByte : Obligations.RndMasksAFreeByte := by
  intro x nn s
  refine ⟨encodedAs_of_encode_eq rfl, _, _, rfl, rfl, fun k => ?_, rfl,
    (draw_onlyChanges s (.inr rfl)).setV (.inl rfl) _⟩
  rw [State.setV_V_self, BitVec.getLsbD_and]
  rfl

end Sys2Proof.Machine
end

section
/-! SUPPORT. The index-register and memory instructions (43_index_memory.md R190 to R195): the encoding, the bound each
checks before it writes, what each writes, and the frame of each. -/

namespace Sys2Proof.Machine

variable {s t : State} {i : Instr} {W : Part → Prop}

/-! ### The words of group 0xF (30_encoding.md R98) -/

/-- The one word of an instruction of group 0xF, its key `nn` beside the group's opcode. -/
theorem encodedAs_of_groupF {x : Reg} {nn : Byte} {w : Nat} (h : encode i = wordXNN 0xF x nn)
    (hw : w = 0xF000 + nn.toNat) : EncodedAs i (w + x.val * 256) := by
  refine encodedAs_of_encode_eq (h.trans ?_)
  unfold wordXNN
  congr 1
  omega

/-! ### LD I and ADD I (R190, R191) -/

/-- Where I may change, a write to I changes nothing more. -/
theorem OnlyChanges.setI (h : OnlyChanges W s t) (hW : W .i) (a : Word) : OnlyChanges W s { t with i := a } := by
  intro p hp
  cases p with
  | i => exact absurd hW hp
  | _ => exact h _ hp

theorem onlyChanges_i (s : State) (a : Word) : OnlyChanges (fun p => p = .i) s { s with i := a } :=
  OnlyChanges.setI (W := fun p => p = .i) (.refl _ s) rfl a

theorem addIndex_toNat (a : Word) (b : Byte) : (addIndex a b).toNat = (a.toNat + b.toNat) % 65536 :=
  BitVec.toNat_ofNat _ _

theorem bool01_passesMemory_toNat (a : Word) (b : Byte) :
    (bool01 (passesMemory a b)).toNat = if a.toNat + b.toNat > 0xFFF then 1 else 0 := by
  simp only [bool01_toNat, passesMemory, decide_eq_true_eq]

/-- By default ADD I writes I alone. -/
theorem exec_addI_of_default {x : Reg} (hc : s.cfg.addISetsVF = false) :
    exec (.addI x) s = .next { s with i := addIndex s.i (s.V x) } := by
  simp [exec, execAddI, hc]

/-- Under `ADD_I_SETS_VF` ADD I writes VF beside I (00_scope.md R7). -/
theorem exec_addI_of_flag {x : Reg} (hc : s.cfg.addISetsVF = true) :
    exec (.addI x) s =
      .next { s.setVF (passesMemory s.i (s.V x)) with i := addIndex s.i (s.V x) } := by
  simp [exec, execAddI, hc]

/-- Settles O32: LD I writes I alone; ADD I writes I, and VF beside it exactly where the parameter says so. -/
theorem loadAndAddToI : Obligations.LoadAndAddToI := by
  intro nnn x s
  refine ⟨encodedAs_of_encode_eq rfl, encodedAs_of_groupF rfl rfl,
    ⟨_, rfl, zextAddr_toNat nnn, onlyChanges_i s _⟩, ?_⟩
  cases hc : s.cfg.addISetsVF with
  | false =>
    exact ⟨_, exec_addI_of_default hc, addIndex_toNat _ _, fun _ => onlyChanges_i s _, fun h => absurd h (by decide)⟩
  | true =>
    refine ⟨_, exec_addI_of_flag hc, addIndex_toNat _ _, fun h => absurd h (by decide), fun _ => ⟨?_, ?_⟩⟩
    · exact (OnlyChanges.setV (.refl _ s) (.inr rfl) _).setI (.inl rfl) _
    · exact (congrArg BitVec.toNat (s.setV_V_self vf _)).trans (bool01_passesMemory_toNat _ _)

/-! ### LD F (R192) -/

/-- Up to digit 15 there is a glyph, at `FONT_BASE + 5 d`; the font lies below 0x200, so the sum is not reduced
(00_scope.md R7). -/
theorem glyphAddress_of_le {c : Config} (hc : c.wf) {d : Byte} (hd : d.toNat ≤ 15) :
    ∃ a, glyphAddress c d = some a ∧ a.toNat = c.fontBase + 5 * d.toNat := by
  obtain ⟨hbase, -⟩ := hc
  refine ⟨_, if_pos hd, ?_⟩
  rw [BitVec.toNat_ofNat, Nat.mod_eq_of_lt]
  simp only [fontLength, glyphBytes] at hbase ⊢
  omega

/-- Settles O33: there is a glyph to point at exactly up to digit 15. -/
theorem ldFPointsAtTheGlyph : Obligations.LdFPointsAtTheGlyph := by
  intro x s
  refine ⟨encodedAs_of_groupF rfl rfl, fun hx => .of_raise ?_, fun hc hx => ?_⟩
  · simp only [exec, execLdF, glyphAddress_eq_none.2 hx]
  · obtain ⟨a, ha, hval⟩ := glyphAddress_of_le hc hx
    exact ⟨{ s with i := a }, by simp only [exec, execLdF, ha], hval, onlyChanges_i s a⟩

/-! ### The stores LD B and LD [I] (R193, R194) -/

/-- A store that answers changes the bytes it writes alone (20_memory.md R67). -/
theorem State.writeBytes_onlyChanges {bs : List Byte} {a : Nat} (h : s.writeBytes a bs = some t)
    (hW : ∀ k, k < bs.length → W (.mem (a + k))) : OnlyChanges W s t := by
  obtain ⟨ht, hother, -⟩ := State.writeBytes_spec bs h
  exact .of_mem ht fun a' ha' => hother a' fun k hk e => ha' (e ▸ hW k hk)

/-- A store answers where its last address is in memory (R68). -/
theorem State.writeBytes_of_last_le {bs : List Byte} {a : Nat} (h : a + bs.length - 1 ≤ 0xFFF) :
    ∃ t, s.writeBytes a bs = some t :=
  Option.ne_none_iff_exists'.1 fun hnone => Nat.not_lt.2 h (State.writeBytes_eq_none.1 hnone).2

/-- The stored digits are below 10, so the bytes hold them unreduced. -/
theorem bcdDigits_toNat (b : Byte) :
    (bcdDigits b)[0].toNat = b.toNat / 100 ∧ (bcdDigits b)[1].toNat = b.toNat / 10 % 10 ∧
      (bcdDigits b)[2].toNat = b.toNat % 10 := by
  have := b.isLt
  simp only [bcdDigits, List.getElem_cons_zero, List.getElem_cons_succ, BitVec.toNat_ofNat]
  omega

theorem exec_ldB_of_past {x : Reg} (h : s.ea 2 > 0xFFF) : exec (.ldB x) s = raise .outOfBounds (.ldB x) s := by
  have hnone : s.writeBytes (s.ea 0) (bcdDigits (s.V x)) = none := State.writeBytes_eq_none.2 ⟨Nat.zero_lt_succ 2, h⟩
  simp only [exec, execLdB, hnone]

/-- In bounds LD B completes with what the store of the three digits answers. -/
theorem exec_ldB_of_le {x : Reg} (h : s.ea 2 ≤ 0xFFF) :
    ∃ t, s.writeBytes (s.ea 0) (bcdDigits (s.V x)) = some t ∧ exec (.ldB x) s = .next t := by
  obtain ⟨t, ht⟩ := State.writeBytes_of_last_le (s := s) (a := s.ea 0) (bs := bcdDigits (s.V x)) h
  exact ⟨t, ht, by simp only [exec, execLdB, ht]⟩

/-- Settles O34: the store of the three digits answers, or their last address is past the memory. -/
theorem ldBStoresTheDigits : Obligations.LdBStoresTheDigits := by
  intro x s
  refine ⟨encodedAs_of_groupF rfl rfl, fun hpast => .of_raise (exec_ldB_of_past hpast), fun hle => ?_⟩
  obtain ⟨t, hwrite, hexec⟩ := exec_ldB_of_le (x := x) hle
  refine ⟨t, hexec, State.writeBytes_onlyChanges hwrite fun k hk => ?_, fun hm => ?_⟩
  · have hk3 : k = 0 ∨ k = 1 ∨ k = 2 := by rw [bcdDigits_length] at hk; omega
    obtain rfl | rfl | rfl := hk3
    · exact .inl rfl
    · exact .inr (.inl rfl)
    · exact .inr (.inr rfl)
  · obtain ⟨-, -, hback⟩ := State.writeBytes_spec _ hwrite
    obtain ⟨hbyte, -⟩ := hback hm
    obtain ⟨hhundreds, htens, hones⟩ := bcdDigits_toNat (s.V x)
    exact ⟨(congrArg BitVec.toNat (hbyte 0 (by simp))).trans hhundreds,
      (congrArg BitVec.toNat (hbyte 1 (by simp))).trans htens,
      (congrArg BitVec.toNat (hbyte 2 (by simp))).trans hones⟩

theorem exec_ldMemVx_of_past {x : Reg} (h : s.ea x.val > 0xFFF) :
    exec (.ldMemVx x) s = raise .outOfBounds (.ldMemVx x) s := by
  have hnone : s.writeBytes (s.ea 0) (s.regsUpTo x) = none := by
    rw [State.writeBytes_eq_none, State.regsUpTo_length]
    exact ⟨Nat.succ_pos _, h⟩
  simp only [exec, execLdMemVx, hnone]

/-- In bounds LD [I], Vx completes. -/
theorem exec_ldMemVx_of_le {x : Reg} (h : s.ea x.val ≤ 0xFFF) : ∃ t, exec (.ldMemVx x) s = .next t := by
  obtain ⟨t, ht⟩ := State.writeBytes_of_last_le (s := s) (a := s.ea 0) (bs := s.regsUpTo x)
    (by rw [State.regsUpTo_length]; exact h)
  exact ⟨t, by simp only [exec, execLdMemVx, ht]⟩

/-- Settles O35: the store of V0..Vx answers, or its last address is past the memory. -/
theorem ldMemStoresTheRegisters : Obligations.LdMemStoresTheRegisters := by
  intro x s
  refine ⟨encodedAs_of_groupF rfl rfl, fun hpast => .of_raise (exec_ldMemVx_of_past hpast), fun hle => ?_⟩
  obtain ⟨t, hexec⟩ := exec_ldMemVx_of_le hle
  have hwrite := writeBytes_of_exec_ldMemVx hle hexec
  refine ⟨t, hexec, State.writeBytes_onlyChanges hwrite fun k hk => ?_, fun hm => (exec_ldMemVx_stores hm hle hexec).2⟩
  rw [State.regsUpTo_length] at hk
  exact ⟨⟨k, hk.trans_le x.isLt⟩, Nat.le_of_lt_succ hk, rfl⟩

/-! ### The load LD Vx, [I] (R195) -/

theorem exec_ldVxMem_of_past {x : Reg} (h : s.ea x.val > 0xFFF) :
    exec (.ldVxMem x) s = raise .outOfBounds (.ldVxMem x) s := by
  have hnone : s.readBytes (s.ea 0) (x.val + 1) = none := State.readBytes_eq_none.2 ⟨Nat.succ_pos _, h⟩
  simp only [exec, execLdVxMem, hnone]

/-- In bounds LD Vx, [I] completes and writes the register file alone: Vk is the byte at I + k up to x, and as before
above it. -/
theorem exec_ldVxMem_of_le {x : Reg} (h : s.ea x.val ≤ 0xFFF) :
    ∃ v : Vector Byte 16, exec (.ldVxMem x) s = .next { s with v := v } ∧
      ∀ k : Reg, v[k.val] = if k ≤ x then s.byte (s.ea k.val) else s.v[k.val] := by
  have hread : s.readBytes (s.ea 0) (x.val + 1) =
      some ((List.range (x.val + 1)).map fun k => s.byte (s.ea k)) := by
    rw [State.readBytes_eq, if_pos (.inr (Nat.succ_le_succ h))]
    rfl
  refine ⟨loadRegs ((List.range (x.val + 1)).map fun k => s.byte (s.ea k)) 0 s.v,
    by simp only [exec, execLdVxMem, hread], fun k => ?_⟩
  rw [loadRegs_getElem]
  by_cases hk : k ≤ x
  · simp [hk, Nat.lt_succ_of_le (Fin.le_def.1 hk)]
  · simp [hk, Fin.le_def.not.1 hk]

/-- Settles O36: the read of the bytes answers and fills V0..Vx, or its last address is past the memory. -/
theorem ldVxMemLoadsTheRegisters : Obligations.LdVxMemLoadsTheRegisters := by
  intro x s
  refine ⟨encodedAs_of_groupF rfl rfl, fun hpast => .of_raise (exec_ldVxMem_of_past hpast), fun hle => ?_⟩
  obtain ⟨v, hexec, hv⟩ := exec_ldVxMem_of_le hle
  refine ⟨_, hexec, fun p hp => ?_, fun k hk => (hv k).trans (if_pos hk)⟩
  cases p with
  | v y => exact (hv y).trans (if_neg fun hy => hp ⟨y, hy, rfl⟩)
  | _ => rfl

/-- Settles O37: the load reads at the addresses the store wrote, and in the same memory. -/
theorem storedRegistersLoadBack : Obligations.StoredRegistersLoadBack := by
  intro x s t u hm hx hstore hmem hi hcfg
  obtain ⟨ht, hback⟩ := exec_ldMemVx_stores hm hx hstore
  have hea : ∀ k, u.ea k = s.ea k := fun k => by rw [State.ea, hi, ht]; rfl
  obtain ⟨v, hload, hv⟩ := exec_ldVxMem_of_le (s := u) (x := x) (by rwa [hea])
  refine ⟨_, hload, fun k hk => ?_⟩
  calc v[k.val] = u.byte (u.ea k.val) := (hv k).trans (if_pos hk)
    _ = t.byte (s.ea k.val) := by rw [hea, State.byte_congr hmem hcfg]
    _ = s.V k := hback k hk

end Sys2Proof.Machine
end

section
/-! SUPPORT. The display instructions (44_display.md R210 to R213): the encoding, what a draw does to each pixel and to
VF, its bound, and the frame of each. -/

namespace Sys2Proof.Machine

variable {x y : Reg} {n px py : Nat} {s t u : State} {W : Part → Prop}

/-! ### Frames of the framebuffer writes -/

/-- Where every pixel may change, a new framebuffer changes nothing more. -/
theorem OnlyChanges.setFb (h : OnlyChanges W s t) (hW : ∀ px py, W (.pixel px py)) (fb : Framebuffer) :
    OnlyChanges W s { t with fb := fb } := by
  intro p hp
  cases p with
  | pixel px py => exact absurd (hW px py) hp
  | _ => exact h _ hp

/-- Settles O41: CLS writes the framebuffer alone. -/
theorem clsTurnsEveryPixelOff : Obligations.ClsTurnsEveryPixelOff :=
  ⟨encodedAs_of_encode_eq rfl, fun s => ⟨_, rfl, Framebuffer.pixel_clear,
    OnlyChanges.setFb (.refl _ s) (fun px py => ⟨px, py, rfl⟩) _⟩⟩

/-! ### The 1 bits of a sprite (R211) -/

/-- A 1 bit lands on the grid: reducing its coordinates gives the same pixel. -/
theorem SpriteBit.wrap (h : SpriteBit s x y n px py) : SpriteBit s x y n (px % 64) (py % 32) := by
  obtain ⟨r, c, hr, hc, hbit, rfl, rfl⟩ := h
  exact ⟨r, c, hr, hc, hbit, Nat.mod_mod _ _, Nat.mod_mod _ _⟩

/-- Where the sprite lands depends on Vx, Vy, I and memory alone. -/
theorem spriteBit_congr (hx : t.V x = s.V x) (hy : t.V y = s.V y) (hi : t.i = s.i)
    (hbyte : ∀ a, t.byte a = s.byte a) : SpriteBit t x y n px py ↔ SpriteBit s x y n px py := by
  simp only [SpriteBit, State.ea, hx, hy, hi, hbyte]

/-- The rows the blit is given are those of the sprite at I. -/
theorem spriteHits_iff_spriteBit :
    spriteHits ((List.range n).map fun r => s.byte (s.ea r)) (s.V x).toNat (s.V y).toNat px py ↔
      SpriteBit s x y n (px % 64) (py % 32) := by
  constructor
  · rintro ⟨r, hr, hrow, c, -, hc, hbit, hcol⟩
    exact ⟨r, c, by simpa using hr, by omega, by simpa using hbit, hcol, hrow⟩
  · rintro ⟨r, c, hr, hc, hbit, hcol, hrow⟩
    exact ⟨r, by simpa using hr, hrow, c, Nat.zero_le c, by omega, by simpa using hbit, hcol⟩

/-! ### What DRW does (R211) -/

/-- From `s` to `t` the sprite of `n` rows at I is drawn at (V[x], V[y]): the pixels under its 1 bits are inverted, the
others kept, and VF says whether one of those inverted was on. -/
structure Draws (x y : Reg) (n : Nat) (s t : State) : Prop where
  inverts {px py : Nat} : SpriteBit s x y n (px % 64) (py % 32) → t.fb.pixel px py = !s.fb.pixel px py
  keeps {px py : Nat} : ¬ SpriteBit s x y n (px % 64) (py % 32) → t.fb.pixel px py = s.fb.pixel px py
  flag : t.V vf = 1 ∨ t.V vf = 0
  collides : t.V vf = 1 ↔ ∃ px py, SpriteBit s x y n px py ∧ s.fb.pixel px py = true

theorem bool01_eq_one_iff (c : Bool) : bool01 c = 1 ↔ c = true := by
  cases c <;> decide

theorem bool01_eq_one_or_zero (c : Bool) : bool01 c = 1 ∨ bool01 c = 0 := by
  cases c <;> decide

/-- The blit of the rows at I, its collision written to VF, draws the sprite. -/
theorem draws_blit {z : Blit} (hn : n ≤ 32)
    (hz : z = s.fb.blit (s.V x).toNat (s.V y).toNat ((List.range n).map fun r => s.byte (s.ea r))) :
    Draws x y n s (State.setVF { s with fb := z.1 } z.2) := by
  have hlen : ((List.range n).map fun r => s.byte (s.ea r)).length ≤ 32 := by simpa using hn
  have hvf : (State.setVF { s with fb := z.1 } z.2).V vf = bool01 z.2 := State.setV_V_self _ vf _
  subst hz
  refine ⟨fun h => ?_, fun h => ?_, ?_, ?_⟩
  · simp [Framebuffer.blit_pixel _ _ _ _ hlen, spriteHits_iff_spriteBit, h]
  · simp [Framebuffer.blit_pixel _ _ _ _ hlen, spriteHits_iff_spriteBit, h]
  · exact hvf ▸ bool01_eq_one_or_zero _
  · rw [hvf, bool01_eq_one_iff, Framebuffer.blit_coll _ _ _ _ hlen]
    simp only [spriteHits_iff_spriteBit]
    constructor
    · rintro ⟨px, py, hbit, hon⟩
      exact ⟨px % 64, py % 32, hbit, by rwa [s.fb.pixel_congr (Nat.mod_mod _ _) (Nat.mod_mod _ _)]⟩
    · rintro ⟨px, py, hbit, hon⟩
      exact ⟨px, py, hbit.wrap, hon⟩

/-- DRW completes where its last sprite byte is in memory; it draws and writes VF and pixels alone. -/
theorem exec_drw_of_le {n : Nibble} (h : n.val = 0 ∨ s.ea n.val - 1 ≤ 0xFFF) :
    ∃ t, exec (.drw x y n) s = .next t ∧ Draws x y n.val s t ∧
      OnlyChanges (fun p => p = .v vf ∨ ∃ px py, p = .pixel px py) s t := by
  have hread : s.readBytes (s.ea 0) n.val = some ((List.range n.val).map fun r => s.byte (s.ea r)) := by
    rw [State.readBytes_eq, if_pos (by simp only [State.ea, memSize] at h ⊢; omega)]
    rfl
  exact ⟨_, by simp only [exec, execDrw, hread], draws_blit (by omega) rfl,
    (OnlyChanges.setFb (.refl _ s) (fun px py => .inr ⟨px, py, rfl⟩) _).setV (.inl rfl) _⟩

theorem exec_drw_of_past {n : Nibble} (h : n.val > 0 ∧ s.ea n.val - 1 > 0xFFF) :
    exec (.drw x y n) s = raise .outOfBounds (.drw x y n) s := by
  have hnone : s.readBytes (s.ea 0) n.val = none := State.readBytes_eq_none.2 h
  simp only [exec, execDrw, hnone]

/-- Settles O42: the read of the sprite answers and the sprite is drawn, or its last address is past the memory. -/
theorem drwXorsTheSprite : Obligations.DrwXorsTheSprite := by
  intro x y n s
  refine ⟨encodedAs_of_encode_eq rfl, fun hpast => .of_raise (exec_drw_of_past hpast), fun hle => ?_⟩
  obtain ⟨t, hexec, hdraw, hframe⟩ := exec_drw_of_le (x := x) (y := y) hle
  refine ⟨t, hexec, hframe, fun px py hpx hpy => ?_, hdraw.collides.2,
    fun hnone => hdraw.flag.resolve_left (mt hdraw.collides.1 hnone)⟩
  have hinverts := hdraw.inverts (px := px) (py := py)
  have hkeeps := hdraw.keeps (px := px) (py := py)
  rw [Nat.mod_eq_of_lt hpx, Nat.mod_eq_of_lt hpy] at hinverts hkeeps
  exact ⟨hinverts, hkeeps⟩

/-! ### Drawing twice (R213) -/

/-- What is drawn does not depend on pc. -/
theorem Draws.of_setPc {a : Word} (h : Draws x y n { s with pc := a } u) : Draws x y n s u :=
  ⟨h.inverts, h.keeps, h.flag, h.collides⟩

/-- A draw leaves a pixel under a 1 bit on exactly where it was off. -/
theorem Draws.on_after_iff (h : Draws x y n s t) (hbit : SpriteBit s x y n px py) :
    t.fb.pixel px py = true ↔ s.fb.pixel px py = false := by
  rw [h.inverts hbit.wrap, Bool.not_eq_true']

/-- A draw turns a pixel on exactly where a 1 bit falls on one that is off. -/
theorem Draws.turnsOn_iff (h : Draws x y n s t) :
    (∃ px py, s.fb.pixel px py = false ∧ t.fb.pixel px py = true) ↔
      ∃ px py, SpriteBit s x y n px py ∧ s.fb.pixel px py = false := by
  constructor
  · rintro ⟨px, py, hoff, hon⟩
    have hbit : SpriteBit s x y n (px % 64) (py % 32) := by
      by_contra hbit
      rw [h.keeps hbit, hoff] at hon
      cases hon
    exact ⟨_, _, hbit, by rwa [s.fb.pixel_congr (Nat.mod_mod _ _) (Nat.mod_mod _ _)]⟩
  · rintro ⟨px, py, hbit, hoff⟩
    exact ⟨px, py, hoff, (h.on_after_iff hbit).2 hoff⟩

/-- A second draw where the first one was undoes it. -/
theorem Draws.fb_eq_of_twice (h : Draws x y n s t) (h' : Draws x y n t u)
    (hbit : ∀ px py, SpriteBit t x y n px py ↔ SpriteBit s x y n px py) : u.fb = s.fb := by
  refine Framebuffer.ext_pixel fun px py => ?_
  by_cases hpix : SpriteBit s x y n (px % 64) (py % 32)
  · rw [h'.inverts ((hbit _ _).2 hpix), h.inverts hpix, Bool.not_not]
  · rw [h'.keeps (mt (hbit _ _).1 hpix), h.keeps hpix]

/-- A second draw where the first one was collides exactly where a 1 bit fell on a pixel that was off. -/
theorem Draws.collides_of_twice (h : Draws x y n s t) (h' : Draws x y n t u)
    (hbit : ∀ px py, SpriteBit t x y n px py ↔ SpriteBit s x y n px py) :
    u.V vf = 1 ↔ ∃ px py, SpriteBit s x y n px py ∧ s.fb.pixel px py = false := by
  simp only [h'.collides, hbit]
  exact exists₂_congr fun px py => and_congr_right h.on_after_iff

/-- A sprite with no 1 bit draws nothing. -/
theorem Draws.of_empty (h : Draws x y n s t) (hempty : ∀ px py, ¬ SpriteBit s x y n px py) :
    t.fb = s.fb ∧ t.V vf = 0 := by
  refine ⟨Framebuffer.ext_pixel fun px py => h.keeps (hempty _ _), h.flag.resolve_left fun hone => ?_⟩
  obtain ⟨px, py, hbit, -⟩ := h.collides.1 hone
  exact hempty px py hbit

/-- Settles O43: the second draw inverts the same pixels, and a pixel under a 1 bit is on before it exactly where it was
off before the first. -/
theorem drawingTwiceRestoresTheFramebuffer : Obligations.DrawingTwiceRestoresTheFramebuffer := by
  intro x y n s t a hle hfirst
  obtain ⟨t', hexec, hdraw, hframe⟩ := exec_drw_of_le (x := x) (y := y) hle
  obtain rfl : t' = t := Host.Outcome.next.inj (hexec.symm.trans hfirst)
  refine ⟨fun hx hy => ?_, hdraw.of_empty⟩
  have hi : t'.i = s.i := hframe .i (by simp)
  have hbit : ∀ px py, SpriteBit t' x y n.val px py ↔ SpriteBit s x y n.val px py := fun px py =>
    spriteBit_congr hx hy hi fun m => hframe (.mem m) (by simp)
  obtain ⟨u, hsecond, hagain, -⟩ := exec_drw_of_le (s := { t' with pc := a }) (x := x) (y := y) (n := n)
    (by simpa only [State.ea, hi] using hle)
  have hcoll := hdraw.collides_of_twice hagain.of_setPc hbit
  exact ⟨u, hsecond, hdraw.fb_eq_of_twice hagain.of_setPc hbit, hagain.flag, hcoll,
    hcoll.trans hdraw.turnsOn_iff.symm⟩

end Sys2Proof.Machine
end

section
/-! SUPPORT. The timer and keypad instructions (45_timers_input.md R230 to R235): the encoding, the bound SKP and SKNP
check, the one part each writes, and how a wait for a key ends. -/

namespace Sys2Proof.Machine

variable {s t : State} {i : Instr} {W : Part → Prop}

/-! ### The words with the operand x and a low byte (30_encoding.md R92) -/

/-- The one word of an instruction of group `op` with the operand x, its low byte beside the group's opcode. -/
theorem encodedAs_of_wordXNN {op : Nat} {x : Reg} {nn : Byte} {w : Nat} (h : encode i = wordXNN op x nn)
    (hw : w = op * 4096 + nn.toNat) : EncodedAs i (w + x.val * 256) := by
  refine encodedAs_of_encode_eq (h.trans ?_)
  unfold wordXNN
  congr 1
  omega

/-! ### Frames of the writes to the timers and to RUN -/

/-- Where DT may change, a write to DT changes nothing more. -/
theorem OnlyChanges.setDt (h : OnlyChanges W s t) (hW : W .dt) (b : Byte) : OnlyChanges W s { t with dt := b } := by
  intro p hp
  cases p with
  | dt => exact absurd hW hp
  | _ => exact h _ hp

/-- Where ST may change, a write to ST changes nothing more. -/
theorem OnlyChanges.setSt (h : OnlyChanges W s t) (hW : W .st) (b : Byte) : OnlyChanges W s { t with st := b } := by
  intro p hp
  cases p with
  | st => exact absurd hW hp
  | _ => exact h _ hp

/-- Where RUN may change, a write to RUN changes nothing more. -/
theorem OnlyChanges.setRun (h : OnlyChanges W s t) (hW : W .run) (r : Run) : OnlyChanges W s { t with run := r } := by
  intro p hp
  cases p with
  | run => exact absurd hW hp
  | _ => exact h _ hp

/-! ### SKP and SKNP (R230, R231) -/

section Keys

variable {x : Reg}

theorem exec_skp_of_past (h : (s.V x).toNat > 15) : exec (.skp x) s = raise .outOfBounds (.skp x) s := by
  simp only [exec, execSkp, keyIndex_eq_none.2 h]

theorem exec_sknp_of_past (h : (s.V x).toNat > 15) : exec (.sknp x) s = raise .outOfBounds (.sknp x) s := by
  simp only [exec, execSknp, keyIndex_eq_none.2 h]

variable {k : Fin 16}

/-- SKP of a key is a skip on its level. -/
theorem exec_skp_of_key (h : (s.V x).toNat = k.val) : exec (.skp x) s = skipIf (s.pressed k) s := by
  simp only [exec, execSkp, keyIndex_eq_some.2 h]

/-- SKNP of a key is a skip on the negation of its level. -/
theorem exec_sknp_of_key (h : (s.V x).toNat = k.val) : exec (.sknp x) s = skipIf (!s.pressed k) s := by
  simp only [exec, execSknp, keyIndex_eq_some.2 h]

end Keys

/-- Settles O44: Vx holds the index of a key and each is `skipIf` on its level, or each raises the fault. -/
theorem keySkips : Obligations.KeySkips := by
  intro x s
  refine ⟨encodedAs_of_wordXNN rfl rfl, encodedAs_of_wordXNN rfl rfl,
    fun hpast => ⟨.of_raise (exec_skp_of_past hpast), .of_raise (exec_sknp_of_past hpast)⟩, fun k hk => ⟨?_, ?_⟩⟩
  · rw [exec_skp_of_key hk]
    exact skipIf_moves_pc Iff.rfl
  · rw [exec_sknp_of_key hk]
    exact skipIf_moves_pc (by rw [Bool.not_eq_true'])

/-! ### Timer moves (R232, R234, R235) -/

/-- Settles O45: each is one write, of a byte read before it. -/
theorem timerMoves : Obligations.TimerMoves := fun x s =>
  ⟨encodedAs_of_groupF rfl rfl, encodedAs_of_groupF rfl rfl, encodedAs_of_groupF rfl rfl,
    ⟨_, rfl, s.setV_V_self x s.dt, onlyChanges_setV s x s.dt⟩,
    ⟨_, rfl, rfl, OnlyChanges.setDt (.refl (fun p => p = .dt) s) rfl (s.V x)⟩,
    ⟨_, rfl, rfl, OnlyChanges.setSt (.refl (fun p => p = .st) s) rfl (s.V x)⟩⟩

/-! ### The wait for a key (R233) -/

/-- All that the press of a released key does while the engine waits: the level, the index in the waiting register, and
the end of the wait (60_exceptions.md R263). -/
theorem setKeyState_press {x : Reg} {k : Fin 16} (hrun : s.run = .suspended x) (hk : s.pressed k = false) :
    setKeyState k true s =
      { (s.setV x (BitVec.ofNat 8 k.val)) with key := s.key.set k.val true, run := .ready } := by
  obtain ⟨y, hy, -, -, hs⟩ | ⟨hno, -⟩ := setKeyState_cases k true s
  · obtain rfl : x = y := Run.suspended.inj (hrun.symm.trans hy)
    exact hs
  · simpa [hk] using hno x hrun

/-- The index of a key fits a byte. -/
theorem keyByte_toNat (k : Fin 16) : (BitVec.ofNat 8 k.val).toNat = k.val :=
  (BitVec.toNat_ofNat k.val 8).trans (Nat.mod_eq_of_lt (k.isLt.trans (by decide)))

/-- Settles O46: the instruction writes RUN alone, and the press of a released key is what ends the wait. -/
theorem waitForKey : Obligations.WaitForKey := by
  intro x s
  refine ⟨encodedAs_of_groupF rfl rfl,
    ⟨_, rfl, rfl, OnlyChanges.setRun (.refl (fun p => p = .run) s) rfl (.suspended x)⟩,
    fun u k hrun hk => ⟨?_, setKeyState_press_run hrun hk, setKeyState_pc u k true⟩⟩
  rw [setKeyState_press hrun hk]
  exact (congrArg BitVec.toNat (u.setV_V_self x _)).trans (keyByte_toNat k)

end Sys2Proof.Machine
end

section
/-! SUPPORT. Faults, events and outputs (60_exceptions.md R250 to R266): that every execute part answers, and faults
exactly where R250 lists it; where each event is taken and what a tick and a key event write; what the outputs read. -/

namespace Sys2Proof.Machine

variable {s t : State} {i : Instr} {e : Event} {W : Part → Prop}

/-! ### The execute parts answer (R250 to R252) -/

theorem exec_ldF_of_past {x : Reg} (h : (s.V x).toNat > 15) : exec (.ldF x) s = raise .outOfBounds (.ldF x) s := by
  simp only [exec, execLdF, glyphAddress_eq_none.2 h]

/-- Up to digit 15 LD F completes. -/
theorem exec_ldF_of_le {x : Reg} (h : (s.V x).toNat ≤ 15) : ∃ t, exec (.ldF x) s = .next t := by
  obtain ⟨a, ha⟩ := Option.ne_none_iff_exists'.1 (mt (glyphAddress_eq_none (c := s.cfg)).1 (Nat.not_lt.2 h))
  exact ⟨{ s with i := a }, by simp only [exec, execLdF, ha]⟩

/-- A byte up to 15 is the index of a key (45_timers_input.md R230). -/
theorem exists_key_of_le {b : Byte} (h : ¬ b.toNat > 15) : ∃ k : Fin 16, b.toNat = k.val :=
  ⟨⟨b.toNat, Nat.lt_succ_of_le (Nat.not_lt.1 h)⟩, rfl⟩

/-- One row of R250: where the condition of the row gives the kind, the execute part that raises it there raises it. -/
theorem exec_of_listed {P : Prop} [Decidable P] {k k' : FaultKind} (h : (if P then some k else none) = some k')
    (hexec : P → exec i s = raise k i s) : exec i s = raise k' i s := by
  obtain ⟨hP, rfl⟩ := Option.ite_some_none_eq_some.1 h
  exact hexec hP

/-- One row of R250 where nothing is raised: the condition of the row does not hold. -/
theorem not_of_unlisted {P : Prop} [Decidable P] {k : FaultKind} (h : (if P then some k else none) = none) : ¬ P :=
  fun hP => Option.some_ne_none k (ite_eq_right_iff.1 h hP)

/-- Under its listed condition every execute part raises the listed kind. -/
theorem exec_of_execFault_eq_some {k : FaultKind} (h : execFault s i = some k) : exec i s = raise k i s := by
  cases i with
  | ret => exact exec_of_listed h exec_ret_of_empty
  | call nnn => exact exec_of_listed h exec_call_of_full
  | drw x y n => exact exec_of_listed h exec_drw_of_past
  | skp x => exact exec_of_listed h exec_skp_of_past
  | sknp x => exact exec_of_listed h exec_sknp_of_past
  | ldF x => exact exec_of_listed h exec_ldF_of_past
  | ldB x => exact exec_of_listed h exec_ldB_of_past
  | ldMemVx x => exact exec_of_listed h exec_ldMemVx_of_past
  | ldVxMem x => exact exec_of_listed h exec_ldVxMem_of_past
  | _ => cases h

/-- Without its listed condition every execute part completes. -/
theorem exec_answers_of_execFault_eq_none (h : execFault s i = none) : ∃ t, exec i s = .next t := by
  cases i with
  | ret =>
    obtain ⟨_, _, -, hret⟩ := exec_ret_of_pos (Nat.pos_of_ne_zero (not_of_unlisted h))
    exact ⟨_, hret⟩
  | call nnn =>
    have hfree : s.sp.val < 16 := Nat.lt_of_le_of_ne (Nat.le_of_lt_succ s.sp.isLt) (not_of_unlisted h)
    obtain ⟨_, -, hcall⟩ := exec_call_of_lt hfree
    exact ⟨_, hcall⟩
  | drw x y n =>
    have hpast := not_of_unlisted h
    obtain ⟨t, hdrw, -⟩ := exec_drw_of_le (s := s) (x := x) (y := y) (n := n) (by omega)
    exact ⟨t, hdrw⟩
  | skp x =>
    obtain ⟨k, hk⟩ := exists_key_of_le (not_of_unlisted h)
    exact ⟨_, exec_skp_of_key hk⟩
  | sknp x =>
    obtain ⟨k, hk⟩ := exists_key_of_le (not_of_unlisted h)
    exact ⟨_, exec_sknp_of_key hk⟩
  | ldF x => exact exec_ldF_of_le (Nat.not_lt.1 (not_of_unlisted h))
  | ldB x =>
    obtain ⟨t, -, hldB⟩ := exec_ldB_of_le (x := x) (Nat.not_lt.1 (not_of_unlisted h))
    exact ⟨t, hldB⟩
  | ldMemVx x => exact exec_ldMemVx_of_le (Nat.not_lt.1 (not_of_unlisted h))
  | ldVxMem x =>
    obtain ⟨_, hload, -⟩ := exec_ldVxMem_of_le (Nat.not_lt.1 (not_of_unlisted h))
    exact ⟨_, hload⟩
  | _ => exact ⟨_, rfl⟩

/-- Every execute part answers a next state: it completes, or it raises its fault. -/
theorem exec_answers (i : Instr) (s : State) : ∃ t, exec i s = .next t := by
  cases h : execFault s i with
  | none => exact exec_answers_of_execFault_eq_none h
  | some k => exact ⟨_, exec_of_execFault_eq_some h⟩

/-- Where no fault is listed, an execute part begun in RUN = Ready does not halt the engine and leaves FAULT. -/
theorem exec_unhalted_of_execFault_eq_none (hrun : s.run = .ready) (hnone : execFault s i = none)
    (h : exec i s = .next t) : t.run ≠ .halted ∧ t.fault = s.fault := by
  have hquiet : ¬ (execFault s i).isSome = true := by simp [hnone]
  refine ⟨fun hhalted => ?_, not_imp_comm.1 (exec_changes_fault h) hquiet⟩
  obtain ⟨x, rfl⟩ | hfault := exec_changes_run h (by simp [hrun, hhalted])
  · cases h
    cases hhalted
  · exact hquiet hfault

/-- Settles O11: the fault is raised under the condition, and without it no effect of an execute part halts. -/
theorem executePartsFaultExactlyWhereListed : Obligations.ExecutePartsFaultExactlyWhereListed := by
  refine ⟨fun i s hrun => ⟨fun k hk => .of_raise (exec_of_execFault_eq_some hk), fun hnone => ?_⟩, rfl, rfl, rfl, rfl⟩
  obtain ⟨t, h⟩ := exec_answers_of_execFault_eq_none hnone
  exact ⟨t, h, exec_unhalted_of_execFault_eq_none hrun hnone h⟩

/-! ### Where an event is taken (R261, R264, R265) -/

/-- A ready engine's step answers, be it by a fault of the fetch, of the decoding or of the execute part. -/
theorem engineStep_answers (hrun : s.run = .ready) : ∃ t, engineStep s = .next t := by
  rw [engineStep_of_ready hrun]
  obtain ⟨-, hc⟩ | ⟨w, -, -, ⟨_, -, hc⟩ | ⟨i, -, hc⟩⟩ := cycle_cases { s with started := true } <;> rw [hc]
  · exact ⟨_, rfl⟩
  · exact ⟨_, rfl⟩
  · exact exec_answers i _

/-- An outside event other than the load is taken only once the load is complete. -/
theorem started_of_deliver (hstep : e ≠ .step) (hload : ∀ bytes o, e ≠ .load bytes o) (h : deliver e s = .next t) :
    s.started = true ∧ s.run ≠ .halted := by
  obtain ⟨hrun, ⟨he, -⟩ | ⟨hstarted, -⟩ | ⟨-, bytes, o, -, he, -⟩⟩ := deliver_next h
  · exact absurd he hstep
  · exact ⟨hstarted, hrun⟩
  · exact absurd he (hload bytes o)

/-- The index of a key event that is taken is that of a key. -/
theorem key_le_of_deliver {k : Nat} {p : Bool} (h : deliver (.key k p) s = .next t) : k ≤ 15 := by
  obtain ⟨-, ⟨he, -⟩ | ⟨-, ⟨he, -⟩ | ⟨he, -⟩ | ⟨_, _, hk, he, -⟩⟩ | ⟨-, _, _, _, he, -⟩⟩ := deliver_next h
  all_goals cases he
  exact Nat.le_of_lt_succ hk

/-- A load is taken only before the run has begun. -/
theorem not_started_of_deliver_load {bytes : List Byte} {o : Nat} (h : deliver (.load bytes o) s = .next t) :
    s.started = false ∧ s.run ≠ .halted := by
  obtain ⟨hrun, ⟨he, -⟩ | ⟨-, ⟨he, -⟩ | ⟨he, -⟩ | ⟨_, _, _, he, -⟩⟩ | ⟨hstarted, -⟩⟩ := deliver_next h
  case inr.inr => exact ⟨hstarted, hrun⟩
  all_goals cases he

/-- A snapshot is taken once the load is complete, and leaves the state as it was (R266). -/
theorem deliver_snapshot (hrun : s.run ≠ .halted) (hstarted : s.started = true) : deliver .snapshot s = .next s := by
  simp only [deliver, if_neg hrun, hstarted, if_true]

/-- Settles O49, event by event: what a taken event says of its state, and that the event is taken there. -/
theorem eventsAreTakenWhereEnabled : Obligations.EventsAreTakenWhereEnabled := by
  refine fun s => ⟨?_, ⟨?_, ?_⟩, ⟨?_, ?_⟩, fun k p => ⟨?_, ?_⟩, fun bytes o => ⟨?_, ?_⟩⟩
  · rw [deliver_step]
    exact ⟨fun ⟨_, h⟩ => (engineStep_next h).1, engineStep_answers⟩
  · exact fun ⟨_, h⟩ => started_of_deliver (e := .tick) nofun nofun h
  · exact fun ⟨hstarted, hrun⟩ => ⟨_, deliver_tick hrun hstarted⟩
  · exact fun ⟨_, h⟩ => started_of_deliver (e := .snapshot) nofun nofun h
  · exact fun ⟨hstarted, hrun⟩ => ⟨_, deliver_snapshot hrun hstarted⟩
  · exact fun ⟨_, h⟩ => ⟨key_le_of_deliver h, started_of_deliver (e := .key k p) nofun nofun h⟩
  · exact fun ⟨hk, hstarted, hrun⟩ => ⟨_, deliver_key hrun hstarted ⟨k, Nat.lt_succ_of_le hk⟩ p⟩
  · rintro ⟨_, h⟩
    obtain ⟨hstarted, hrun⟩ := not_started_of_deliver_load h
    exact ⟨hstarted, hrun, fits_of_deliver_load h⟩
  · rintro ⟨hstarted, hrun, hfit⟩
    obtain ⟨_, hload⟩ := Option.isSome_iff_exists.1 ((State.load_isSome s bytes o).2 hfit)
    exact ⟨_, deliver_load_of_load hstarted hrun hload⟩

/-- Settles O50: the schedule is empty or it has a first event. -/
theorem stepTakesTheNextEvent : Obligations.StepTakesTheNextEvent := fun _ =>
  ⟨step_of_env_nil, fun _ _ => step_of_env_cons⟩

/-! ### The tick (R257, R259) -/

/-- A tick changes the two timers alone. -/
theorem tick_onlyChanges (s : State) : OnlyChanges (fun p => p = .dt ∨ p = .st) s (tick s) :=
  (OnlyChanges.setDt (W := fun p => p = .dt ∨ p = .st) (.refl _ s) (.inl rfl) (countDown s.dt)).setSt (.inr rfl)
    (countDown s.st)

/-- Settles O47: the tick counts each timer down, and is an event, so not taken in Halted. -/
theorem tickCountsBothTimersDown : Obligations.TickCountsBothTimersDown := fun s hstarted =>
  ⟨fun hrun => ⟨_, deliver_tick hrun hstarted, countDown_toNat s.dt, countDown_toNat s.st, tick_onlyChanges s⟩,
    fun hrun => deliver_ne_next_of_halted hrun .tick⟩

/-! ### The key event (R261, R263) -/

/-- Where KEY[k] may change, a write to the level of key k changes nothing more. -/
theorem OnlyChanges.setKey {k : Fin 16} (h : OnlyChanges W s t) (hW : W (.key k)) (b : Bool) :
    OnlyChanges W s { t with key := t.key.set k.val b } := by
  intro p hp
  cases p with
  | key j =>
    have hne : k.val ≠ j.val := fun he => hp (Fin.ext he ▸ hW)
    exact (Vector.getElem_set_ne k.isLt j.isLt hne).trans (h _ hp)
  | _ => exact h _ hp

/-- The press that ends a wait changes the level, the waiting register and RUN alone. -/
theorem setKeyState_press_onlyChanges {x : Reg} {k : Fin 16} (hrun : s.run = .suspended x)
    (hk : s.pressed k = false) :
    OnlyChanges (fun q => q = .key k ∨ q = .v x ∨ q = .run) s (setKeyState k true s) := by
  rw [setKeyState_press hrun hk]
  exact ((OnlyChanges.setV (.refl _ s) (.inr (.inl rfl)) _).setKey (.inl rfl) true).setRun (.inr (.inr rfl)) .ready

/-- With no wait to end, or no edge from released to pressed to end it, a key event writes the level alone. -/
theorem setKeyState_onlyChanges_key {k : Fin 16} {p : Bool}
    (h : (∀ x, s.run ≠ .suspended x) ∨ p = false ∨ s.pressed k = true) :
    OnlyChanges (fun q => q = .key k) s (setKeyState k p s) := by
  obtain ⟨x, hrun, hp, hk, -⟩ | ⟨-, hs⟩ := setKeyState_cases k p s
  · simp [hrun, hp, hk] at h
  · rw [hs]
    exact OnlyChanges.setKey (W := fun q => q = .key k) (.refl _ s) rfl p

/-- Settles O48: `setKeyState` ends a wait at an edge and else writes the level alone; the index has to be a key's. -/
theorem keyEventWritesTheLatchAndEndsAWait : Obligations.KeyEventWritesTheLatchAndEndsAWait := by
  refine fun s p hstarted hrun => ⟨fun k => ⟨_, deliver_key hrun hstarted k p, ?_, ?_, setKeyState_onlyChanges_key⟩,
    fun k t hk h => absurd (key_le_of_deliver h) (Nat.not_le.2 hk)⟩
  · rw [setKeyState_pressed, if_pos rfl]
  · rintro x hwait rfl hk
    obtain ⟨-, -, hresume⟩ := waitForKey x s
    obtain ⟨hV, hready, -⟩ := hresume s k hwait hk
    exact ⟨hV, hready, setKeyState_press_onlyChanges hwait hk⟩

/-! ### The outputs (R260, R262, R266) -/

/-- The sound output is on exactly while ST is not 0. -/
theorem State.soundOn_iff (s : State) : s.soundOn = true ↔ s.st.toNat ≠ 0 := by
  rw [State.soundOn, bne_iff_ne, ← BitVec.toNat_ne_iff_ne]
  rfl

/-- Settles O52: the outputs are read from FB, ST, RUN and FAULT, and the event of a snapshot writes nothing. -/
theorem outputsReadTheState : Obligations.OutputsReadTheState := fun s =>
  ⟨fun hstarted hrun => deliver_snapshot hrun hstarted, fun _ _ => rfl, s.soundOn_iff, rfl⟩

end Sys2Proof.Machine
end

section
/-! SUPPORT. The reset state, item by item (70_reset_and_hazards.md R290), and what the engine makes of it with nothing
loaded (R293). -/

namespace Sys2Proof.Machine

variable {c : Config}

/-! ### The registers, the screen and the latch -/

theorem State.resetWith_V (c : Config) (x : Reg) : (State.resetWith c).V x = 0 := Vector.getElem_replicate x.isLt

theorem State.resetWith_pixel (c : Config) (x y : Nat) : (State.resetWith c).fb.pixel x y = false :=
  Framebuffer.pixel_clear x y

theorem State.resetWith_pressed (c : Config) (k : Fin 16) : (State.resetWith c).pressed k = false :=
  Vector.getElem_replicate k.isLt

/-! ### Memory -/

/-- No cell is listed, so every address reads as its reset contents (10_state.md R32). -/
theorem State.resetWith_byte (c : Config) (a : Nat) : (State.resetWith c).byte a = resetByte c a := rfl

/-- `FONT_DATA` stands at `FONT_BASE` (R33). -/
theorem resetByte_font (hc : c.wf) {k : Nat} (hk : k < fontLength) :
    some (resetByte c (c.fontBase + k)) = c.fontData[k]? := by
  obtain ⟨-, hlen⟩ := hc
  have hfont : c.fontBase ≤ c.fontBase + k ∧ c.fontBase + k < c.fontBase + fontLength := by omega
  have hin : k < c.fontData.length := hlen ▸ hk
  rw [resetByte, if_pos hfont, Nat.add_sub_cancel_left, List.getD_eq_getElem _ _ hin, List.getElem?_eq_getElem hin]

/-- Outside the font every byte is 0 (R32). -/
theorem resetByte_of_not_font {a : Nat} (ha : a < c.fontBase ∨ c.fontBase + fontLength ≤ a) : resetByte c a = 0 :=
  if_neg (by omega)

/-- Settles O16: the scalars are the reset state's own fields, the others one lemma each above. -/
theorem resetLeavesTheListedState : Obligations.ResetLeavesTheListedState := by
  refine ⟨rfl, by decide, ?_⟩
  rintro c _ hc rfl
  exact ⟨State.resetWith_V c, rfl, rfl, rfl, State.resetWith_stack c, rfl, rfl, rfl, rfl, rfl,
    fun _ hk => resetByte_font hc hk, fun _ ha => resetByte_of_not_font ha, State.resetWith_pixel c,
    State.resetWith_pressed c⟩

/-! ### The first engine step with nothing loaded (R293) -/

/-- The font lies below the program (00_scope.md R7), so the program region reads 0. -/
theorem resetByte_of_progStart_le (hc : c.wf) {a : Nat} (ha : progStart ≤ a) : resetByte c a = 0 :=
  resetByte_of_not_font (.inr (hc.1.trans ha))

/-- With nothing loaded the word at the entry point is 0x0000. -/
theorem fetch_resetWith (hc : c.wf) : fetch (State.resetWith c) = some 0x0000 := by
  have hpc : (State.resetWith c).pc.toNat = progStart := rfl
  rw [fetch_eq, hpc, if_pos (by decide), State.resetWith_byte, State.resetWith_byte,
    resetByte_of_progStart_le hc le_rfl, resetByte_of_progStart_le hc (Nat.le_succ _)]
  rfl

/-- The word 0x0000 is no row of group 0x0 (30_encoding.md R95), so dispatch rejects it whatever the parameters. -/
theorem dispatch_zero (c : Config) : dispatch c 0x0000 = .error (.unknownOpcode 0x0000) := rfl

/-- On every machine whose parameters are as R7 asks the first step stops at the entry point. -/
theorem engineStep_resetWith (hc : c.wf) :
    engineStep (State.resetWith c) = .next ((State.resetWith c).stopped .unknownOpcode (some 0x0000)) :=
  engineStep_of_dispatch_error rfl (fetch_resetWith hc) (dispatch_zero c)

/-- Settles O19: the machine with the default parameters is one of those `engineStep_resetWith` speaks of. -/
theorem emptyMachineFaultsAtTheEntryPoint : Obligations.EmptyMachineFaultsAtTheEntryPoint :=
  ⟨_, engineStep_resetWith (c := {}) (by decide), rfl, rfl, rfl⟩

end Sys2Proof.Machine
end
